-- ==== Sys2Proof/Word.lean ====
section
/-! DEFINITION. The word types of the ACU-TX block (00_scope.md R7, R8): bit 0 is the least significant bit. -/

namespace Sys2Proof

/-- `u8` (R8). -/
abbrev Byte := BitVec 8

/-- The bit pattern of an `i16` (R8): the value it stands for is `BitVec.toInt`. -/
abbrev Half := BitVec 16

/-- A frame packed as 32 bits, byte 0 in bits 31..24 (R70, R57). -/
abbrev Frame := BitVec 32

/-- The 35-bit command word (R80). -/
abbrev Command := BitVec 35

end Sys2Proof
end

