-- ==== Sys2Proof/Syntax.lean ====
section
/-! DEFINITION. The instructions: one constructor for each row of spec/opcode_table.json. -/

namespace Sys2Proof

/-- "one of {Start, Zero, One, Stop}" (30_encoding.md R76). -/
inductive Symbol where
  | start | zero | one | stop
deriving DecidableEq, Repr

/-- The rows of the opcode table: five operations (R80), three reserved operation codes (R86) and the four pulse symbols
that TRANSMIT emits (R76, R162 to R165). Command bits the spec calls ignored (R87) are no operands: the decoder drops them. -/
inductive Instr where
  /-- BUILD (R81, R102). -/
  | build
  /-- `HASH data, off` (R82, R89): the payload is the first `len` bytes, so its length is `len`. -/
  | hash (data : List Byte) (off : Nat)
  /-- `CONVERT reg` (R83). -/
  | convert (reg : Half)
  /-- `GENERATE id, batt, temp` (R84). -/
  | generate (id : Byte) (batteryOk : Bool) (temperature : Half)
  /-- `TRANSMIT [b0, b1, b2, b3]` (R85). -/
  | transmit (b0 b1 b2 b3 : Byte)
  /-- Operation code 101 (R86). -/
  | reserved5
  /-- Operation code 110 (R86). -/
  | reserved6
  /-- Operation code 111 (R86). -/
  | reserved7
  /-- The pulse symbol Zero (R163). -/
  | zero
  /-- The pulse symbol One (R164). -/
  | one
  /-- The pulse symbol Start (R162). -/
  | start
  /-- The pulse symbol Stop (R165). -/
  | stop
deriving DecidableEq, Repr

end Sys2Proof
end

