-- ==== Sys2Proof/WellFormed.lean ====
section
/-! DEFINITION. Which instructions an encoding can express. Two checks, both of HASH (30_encoding.md R80, R82): at most
three payload bytes, an offset of at most 31. Every other operand is as wide as its field. -/

namespace Sys2Proof

/-- `len` is 0..3 (R80). -/
abbrev Instr.PayloadFits (data : List Byte) : Prop := data.length ≤ 3

/-- `off` is 0..31 (R80). -/
abbrev Instr.OffsetFits (off : Nat) : Prop := off ≤ 31

/-- The instruction can be written as a code word (R80). -/
abbrev Instr.WellFormed : Instr → Prop
  | .hash data off => Instr.PayloadFits data ∧ Instr.OffsetFits off
  | .build => True
  | .convert _ => True
  | .generate _ _ _ => True
  | .transmit _ _ _ _ => True
  | .reserved5 => True
  | .reserved6 => True
  | .reserved7 => True
  | .zero => True
  | .one => True
  | .start => True
  | .stop => True

end Sys2Proof
end

