-- ==== Sys2Proof/Decode.lean ====
section
/-! DEFINITION. From code words to instructions and back (30_encoding.md R76, R80 to R87, R90). The block has two code
spaces: the 35-bit command word of the command port, and the 2-bit internal code of the transmitter's pulse symbols. -/

namespace Sys2Proof

/-- A code word: a command (R80) or a symbol code (R76). -/
inductive CodeWord where
  | cmd (w : Command)
  | sym (c : BitVec 2)
deriving DecidableEq, Repr

/-- Why a number is no code word. -/
inductive DecodeError where
  /-- Bits above bit 34: the command port is 35 bits wide (R36, R80). -/
  | notACommandWord
  /-- Bits above bit 1: a symbol code is 2 bits (R76). -/
  | notASymbolCode
deriving DecidableEq, Repr

/-- `cmd[34:32]` (R80). -/
def opField (w : Command) : BitVec 3 := w.extractLsb' 32 3

/-- HASH: `cmd[31:30]`, the number of payload bytes (R80). -/
def lenField (w : Command) : BitVec 2 := w.extractLsb' 30 2

/-- HASH: `cmd[28:24]` (R80). -/
def offField (w : Command) : BitVec 5 := w.extractLsb' 24 5

/-- HASH: "the payload is the first `len` bytes, byte 0 first; bytes beyond `len` are ignored" (R82). -/
def payloadField (w : Command) : List Byte :=
  [w.extractLsb' 16 8, w.extractLsb' 8 8, w.extractLsb' 0 8].take (lenField w).toNat

/-- The operation map of R90: the decoder looks at `op` alone (R80) and is total. -/
def decodeCommand (w : Command) : Instr :=
  match (opField w).toNat with
  | 0 => .build
  | 1 => .hash (payloadField w) (offField w).toNat
  | 2 => .convert (w.extractLsb' 0 16)
  | 3 => .generate (w.extractLsb' 24 8) (w.getLsbD 16) (w.extractLsb' 0 16)
  | 4 => .transmit (w.extractLsb' 24 8) (w.extractLsb' 16 8) (w.extractLsb' 8 8) (w.extractLsb' 0 8)
  | 5 => .reserved5
  | 6 => .reserved6
  | _ => .reserved7

/-- The internal code `sym[1:0]` (R76). -/
def decodeSymbol (c : BitVec 2) : Instr :=
  match c.toNat with
  | 0 => .zero
  | 1 => .one
  | 2 => .start
  | _ => .stop

/-- "A decoder is total" (R90). -/
def decode : CodeWord → Instr
  | .cmd w => decodeCommand w
  | .sym c => decodeSymbol c

/-- The code word that a number of `nbits` bits stands for: one byte holds a symbol code (2 bits), more a command word
(35 bits). A number too large for its code space is rejected by name (log 12). -/
def codeWordOf (nbits w : Nat) : Except DecodeError CodeWord :=
  if nbits ≤ 8 then
    if w < 4 then .ok (.sym (BitVec.ofNat 2 w)) else .error .notASymbolCode
  else
    if w < 2 ^ 35 then .ok (.cmd (BitVec.ofNat 35 w)) else .error .notACommandWord

/-- The instruction the decoder reads from `nbits` bits `w`, bit 0 the least significant. -/
def decodeTableWord (nbits w : Nat) : Option Instr :=
  match codeWordOf nbits w with
  | .ok cw => some (decode cw)
  | .error _ => none

/-- An operation code over its 32-bit operand field (R80). -/
def packCommand (op : BitVec 3) (operand : BitVec 32) : Command := op ++ operand

/-- A 32-bit field from four bytes, byte 0 in the highest bits (R57, R80). -/
def packBytes (b0 b1 b2 b3 : Byte) : BitVec 32 := b0 ++ b1 ++ b2 ++ b3

/-- HASH's first operand byte: `len`, the ignored bit 29 (written 0), `off` (R80). -/
def hashHead (len : BitVec 2) (off : BitVec 5) : Byte := len ++ (0#1 : BitVec 1) ++ off

/-- The code word of an instruction (R80 to R86, R76). Ignored bits are written as zeros (R87, log 11). -/
def encode : Instr → CodeWord
  | .build => .cmd (packCommand 0 0)
  | .hash data off =>
    .cmd (packCommand 1 (packBytes (hashHead (BitVec.ofNat 2 data.length) (BitVec.ofNat 5 off))
      (data.getD 0 0) (data.getD 1 0) (data.getD 2 0)))
  | .convert reg => .cmd (packCommand 2 (0#16 ++ reg))
  | .generate id batteryOk temperature =>
    .cmd (packCommand 3 (id ++ (0#7 : BitVec 7) ++ BitVec.ofBool batteryOk ++ temperature))
  | .transmit b0 b1 b2 b3 => .cmd (packCommand 4 (packBytes b0 b1 b2 b3))
  | .reserved5 => .cmd (packCommand 5 0)
  | .reserved6 => .cmd (packCommand 6 0)
  | .reserved7 => .cmd (packCommand 7 0)
  | .zero => .sym 0
  | .one => .sym 1
  | .start => .sym 2
  | .stop => .sym 3

end Sys2Proof
end

