-- ==== Sys2Proof/Config.lean ====
section
/-! DEFINITION. The configuration record of the block (00_scope.md R6): fixed when the block is built, never written
while it runs. The record of this hardware (its default) is `defaultConfig` in Sys2Proof/Machine/Params.lean. -/

namespace Sys2Proof

/-- PAYLOAD_BYTES: the bytes GENERATE hashes (R6). -/
def Config.payloadBytes : Nat := 3

/-- FRAME_BYTES: "always exactly 4 bytes" (R6, R70). -/
def Config.frameBytes : Nat := 4

/-- The configuration record (R6). TEMP_LAYOUT is no field: the block has one layout and a model must not offer another
(R131). Host constants (TX_REPEAT, BATT_LOW_MV, WDT_PERIODS) are not fields of the block (R6). -/
structure Config where
  /-- LFSR_SEED (R6). -/
  lfsrSeed : Byte
  /-- LFSR_TAP (R6). -/
  lfsrTap : Byte
  /-- TABLE_SIZE, M (R6). -/
  tableSize : Nat
  /-- CHK_OFFSET (R6). -/
  chkOffset : Nat
  /-- T_START_ON, microseconds (R151), and so on for the other seven. -/
  startOn : Nat
  startOff : Nat
  zeroOn : Nat
  zeroOff : Nat
  oneOn : Nat
  oneOff : Nat
  stopOn : Nat
  stopOff : Nat
  /-- POS_TABLE (R123): 16 entries of 4 bits (R34). -/
  posTable : Vector (BitVec 4) 16
  /-- NEG_TABLE (R124). -/
  negTable : Vector (BitVec 4) 16
  /-- TICKS_PER_US (R6, R156). -/
  ticksPerUs : Nat
deriving DecidableEq, Repr

/-- What the spec asks of a record: TABLE_SIZE is 28 or 32 (92_eei_decisions.md D8) and at least
8 * PAYLOAD_BYTES + CHK_OFFSET (R6); every duration is at least 1 (R151); at least one tick makes a microsecond (R6). -/
abbrev Config.Legal (c : Config) : Prop :=
  (c.tableSize = 28 ∨ c.tableSize = 32) ∧
  8 * Config.payloadBytes + c.chkOffset ≤ c.tableSize ∧
  (1 ≤ c.startOn ∧ 1 ≤ c.startOff ∧ 1 ≤ c.zeroOn ∧ 1 ≤ c.zeroOff) ∧
  (1 ≤ c.oneOn ∧ 1 ≤ c.oneOff ∧ 1 ≤ c.stopOn ∧ 1 ≤ c.stopOff) ∧
  1 ≤ c.ticksPerUs

end Sys2Proof
end

