-- ==== Sys2Proof/Machine/Params.lean ====
section
/-! DEFINITION. The values of this hardware's configuration record (00_scope.md R6). -/

namespace Sys2Proof.Machine

/-- POS_TABLE (41_tempcodec.md R123): 10 * i / 16 to the nearest integer, halves up. -/
def posTable : Vector (BitVec 4) 16 := #v[0, 1, 1, 2, 3, 3, 4, 4, 5, 6, 6, 7, 8, 8, 9, 9]

/-- NEG_TABLE (41_tempcodec.md R124): halves down, so only entries 4 and 12 differ. -/
def negTable : Vector (BitVec 4) 16 := #v[0, 1, 1, 2, 2, 3, 4, 4, 5, 6, 6, 7, 7, 8, 9, 9]

/-- "value of this hardware" (R6); the pulse times are R151's. -/
def defaultConfig : Config where
  lfsrSeed := 0x7C
  lfsrTap := 0x18
  tableSize := 28
  chkOffset := 4
  startOn := 500
  startOff := 9000
  zeroOn := 500
  zeroOff := 2000
  oneOn := 500
  oneOff := 4000
  stopOn := 500
  stopOff := 500
  posTable := posTable
  negTable := negTable
  ticksPerUs := 1

end Sys2Proof.Machine
end

