-- ==== Sys2Proof/Machine/State.lean ====
section
/-! DEFINITION. The state of the block (10_state.md R22 to R33), as plain data, and the state after reset (R39). -/

namespace Sys2Proof.Machine

/-- `tx_phase` (R31). -/
inductive TxPhase where
  | idle | on | off
deriving DecidableEq, Repr

/-- The fault codes of the block (60_exceptions.md R181); their numbers are `ErrCode.code`. -/
inductive ErrCode where
  | badOp | noTable | rebuild | range
deriving DecidableEq, Repr

/-- The values of the input ports at one rising edge of `clk` (R36). -/
structure PortIn where
  rst : Bool
  cmdValid : Bool
  cmd : Command
  tblRaddr : BitVec 5
deriving DecidableEq, Repr

/-- The whitening table's storage: (index, byte) pairs, indices strictly rising (`Memory.wf`). An unlisted index has no
value: "a model gives the entries no value until BUILD has run" (R22, log 5). -/
abbrev Memory := List Host.Cell

/-- Everything the spec gives the block. `cfg` and `inputs` are the model's own fields (logs 3 and 1). -/
structure State where
  /-- The configuration record (R6), which no step writes. -/
  cfg : Config
  /-- `TBL` (R22). -/
  tbl : Memory
  /-- `table_valid` (R23). -/
  tableValid : Bool
  /-- `lfsr` (R24). -/
  lfsr : Byte
  /-- `acc` (R25). -/
  acc : Byte
  /-- `res` (R26). -/
  res : BitVec 32
  /-- `busy` (R27). -/
  busy : Bool
  /-- `done` (R28). -/
  done : Bool
  /-- `fault` (R29). -/
  fault : BitVec 3
  /-- `tx_frame` (R30). -/
  txFrame : Frame
  /-- `tx_phase` (R31). -/
  txPhase : TxPhase
  /-- `tx_k`, "an integer 0..33" (R31). -/
  txK : Fin 34
  /-- `tx_timer`, in ticks (R32, R156). -/
  txTimer : Nat
  /-- `ook_out` (R33). -/
  ookOut : Bool
  /-- What the host drives on the input ports at the coming edges, the next edge first; after the list's end it drives
  nothing (log 1). -/
  inputs : List PortIn
deriving DecidableEq, Repr

/-- Where the MODEL stops, in states no run reaches. The block's own faults are not among them: taking one is a next state
(R183). -/
inductive Fault where
  /-- Raised by HASH and GENERATE: `table_valid` is 1 and an entry below TABLE_SIZE was never written. Impossible after
  reset (R40 c); the entry has no value (R22). Safe. -/
  | tableEntryUnwritten
  /-- Raised by the pulse symbols: a transmission runs and `tx_timer` is 0. Impossible after reset (R40 e); no rule of R158
  to R161 gives a transition. Safe. -/
  | txTimerZero
deriving DecidableEq, Repr

/-- Why an instruction is refused. -/
inductive Refusal where
  /-- Raised by `exec` for an instruction with no meaning yet; none is left. Safe. -/
  | notModelled (mnemonic : String)
deriving DecidableEq, Repr

/-- The block right after reset (R39), with the record of R6. `lfsr`, `acc`, `txFrame`, `txK` and `txTimer` have no reset
value in the spec: 0 is a DESIGN CHOICE (log 4). `TBL` has no entry with a value (log 5). -/
def State.reset : State where
  cfg := defaultConfig
  tbl := []
  tableValid := false
  lfsr := 0
  acc := 0
  res := 0
  busy := false
  done := false
  fault := 0
  txFrame := 0
  txPhase := .idle
  txK := 0
  txTimer := 0
  ookOut := false
  inputs := []

end Sys2Proof.Machine
end

