-- ==== Sys2Proof/Machine/Ops.lean ====
section
/-! DEFINITION. The named operations over the state: the whitening table's storage, what the input ports carry, taking a
fault and leaving it by reset. -/

namespace Sys2Proof.Machine

/-- The form of a table's storage: indices strictly rising. No entry can equal what an unlisted index reads as, since an
unlisted index has no value. -/
abbrev Memory.wf (m : Memory) : Prop := m.Pairwise fun a b => a.1 < b.1

/-- The byte at an index, if one was ever written (R52). -/
def Memory.read : Memory → Nat → Option Byte
  | [], _ => none
  | (a, b) :: m, i => if a = i then some b else Memory.read m i

/-- One byte written at an index (R51). -/
def Memory.write : Memory → Nat → Byte → Memory
  | [], i, v => [(i, v)]
  | (a, b) :: m, i, v =>
    if i < a then (i, v) :: (a, b) :: m
    else if i = a then (i, v) :: m
    else (a, b) :: Memory.write m i v

/-- Bytes written at `i`, `i + 1`, … "in index order, one `u8` each" (R51). -/
def Memory.writeRange : Memory → Nat → List Byte → Memory
  | m, _, [] => m
  | m, i, v :: vs => Memory.writeRange (m.write i v) (i + 1) vs

/-- Why a read of `TBL` gives no byte. -/
inductive TblError where
  /-- The index is at or past TABLE_SIZE (R54). -/
  | outOfRange
  /-- The entry has no value (R22). -/
  | unwritten
deriving DecidableEq, Repr

/-- `TBL[i]`: "defined only when `table_valid = 1` and `0 ≤ i < M`" (R52). The caller has checked `table_valid` (R55). -/
def readTbl (s : State) (i : Nat) : Except TblError Byte :=
  if i < s.cfg.tableSize then
    match s.tbl.read i with
    | some b => .ok b
    | none => .error .unwritten
  else .error .outOfRange

/-- The ports when the host drives nothing: no reset, no command (log 1). -/
def idlePorts : PortIn where
  rst := false
  cmdValid := false
  cmd := 0
  tblRaddr := 0

/-- What the input ports carry at the next rising edge (R36). -/
def portIn (s : State) : PortIn := s.inputs.headD idlePorts

/-- The host's drive of one edge is used up. -/
def afterEdge (s : State) : State := { s with inputs := s.inputs.tail }

/-- The number that `fault` takes (60_exceptions.md R181). -/
def ErrCode.code : ErrCode → BitVec 3
  | .badOp => 1
  | .noTable => 2
  | .rebuild => 3
  | .range => 4

/-- Fault entry (R183): "`fault <- code`; `done` stays 0 (it was cleared by the accept); every other state element keeps
the value it had before the command". -/
def raiseFault (e : ErrCode) (s : State) : State := { s with fault := e.code, done := false }

/-- Reset (70_reset_and_hazards.md R210): every element of the block at its reset value. The only way to leave a fault
(R187). The record and what the host will drive are not elements of the block. -/
def resetBlock (s : State) : State := { State.reset with cfg := s.cfg, inputs := s.inputs }

end Sys2Proof.Machine
end

