-- ==== Sys2Proof/Machine/Flags.lean ====
section
/-! DEFINITION. The status flags a program can test, `busy`, `done`, `table_valid` and `fault` (10_state.md R27 to R29), and
the output ports (R36). The block has no condition codes. -/

namespace Sys2Proof.Machine

/-- `cmd_ready = (busy = 0) and (fault = 0)`, combinational (R36). -/
def cmdReady (s : State) : Bool := !s.busy && s.fault == 0

/-- `done` is "cleared to 0 at the edge that accepts any command" (R28). -/
def accept (s : State) : State := { s with done := false }

/-- `done` is "set to 1 at the edge at which that operation completes without fault" (R28). -/
def complete (s : State) : State := { s with done := true }

/-- `tbl_rdata` for an index (R38): "`TBL[tbl_raddr]` when `table_valid = 1` and `tbl_raddr < M`; otherwise
`tbl_rdata = 0x00`". -/
def tblRdata (s : State) (raddr : BitVec 5) : Byte :=
  if s.tableValid && decide (raddr.toNat < s.cfg.tableSize) then (s.tbl.read raddr.toNat).getD 0 else 0

/-- The output ports of R36. -/
structure PortOut where
  cmdReady : Bool
  busy : Bool
  done : Bool
  fault : BitVec 3
  tableValid : Bool
  res : BitVec 32
  tblRdata : Byte
  ookOut : Bool
deriving DecidableEq, Repr

/-- What the output ports show (R36); `tbl_rdata` follows the index the host drives (R38). -/
def portOut (s : State) : PortOut where
  cmdReady := cmdReady s
  busy := s.busy
  done := s.done
  fault := s.fault
  tableValid := s.tableValid
  res := s.res
  tblRdata := tblRdata s (portIn s).tblRaddr
  ookOut := s.ookOut

end Sys2Proof.Machine
end

