-- ==== Sys2Proof/Machine/Operands.lean ====
section
/-! DEFINITION. The operand forms: bit positions of byte sequences, the temperature register's fields, the frame's bytes, the
frame's symbols and their durations. -/

namespace Sys2Proof.Machine

/-- `bit(data, p)`: bit `7 - (p mod 8)` of byte `p div 8` (00_scope.md R7, R56). -/
def bitAt (data : List Byte) (p : Nat) : Bool := (data.getD (p / 8) 0).getLsbD (7 - p % 8)

/-- The 8 * N bit positions of a sequence of N bytes, in the order they are walked (R56). -/
def bitPositions (data : List Byte) : List Nat := List.range (8 * data.length)

/-- The bytes of a packed frame, byte 0 first (R57, R70). -/
def frameBytes (f : Frame) : List Byte :=
  [f.extractLsb' 24 8, f.extractLsb' 16 8, f.extractLsb' 8 8, f.extractLsb' 0 8]

/-- Frame bit position `p`: "bit `31 − p` of the packed `tx_frame`" (R153). -/
def frameBit (f : Frame) (p : Nat) : Bool := f.getLsbD (31 - p)

/-- `v >> k` on a signed value: "an arithmetic shift: `v >> k = floor(v / 2^k)`" (R10). -/
def asr (v : Int) (k : Nat) : Int := v / 2 ^ k

/-- `whole = register >> 7` (R121). -/
def wholePart (reg : Half) : Int := asr reg.toInt 7

/-- `frac_bin = (register & 0x78) >> 3`, 0..15 (R121). -/
def fracBin (reg : Half) : BitVec 4 := ((reg &&& 0x78) >>> 3).setWidth 4

/-- The status nibble: "`0b1000` if `batteryOk` else `0b0000`" (R72). -/
def statusNibble (batteryOk : Bool) : BitVec 4 := if batteryOk then 0b1000 else 0b0000

/-- `body[0..2]` of a frame (R140): the id, the status nibble over `t[11:8]`, and `t[7:0]`. -/
def frameBody (id : Byte) (batteryOk : Bool) (temperature : Half) : List Byte :=
  [id, statusNibble batteryOk ++ temperature.extractLsb' 8 4, temperature.extractLsb' 0 8]

/-- `symbols(frame)[k]` (R153): Start, the 32 frame bits, Stop. -/
def symbolAt (f : Frame) (k : Nat) : Symbol :=
  if k = 0 then .start
  else if k ≤ 32 then (if frameBit f (k - 1) then .one else .zero)
  else .stop

/-- The internal code of a symbol (R76). -/
def symbolCode : Symbol → BitVec 2
  | .zero => 0b00
  | .one => 0b01
  | .start => 0b10
  | .stop => 0b11

/-- `T_on(s)` in microseconds (R151). -/
def onUs (c : Config) : Symbol → Nat
  | .start => c.startOn
  | .zero => c.zeroOn
  | .one => c.oneOn
  | .stop => c.stopOn

/-- `T_off(s)` in microseconds (R151). -/
def offUs (c : Config) : Symbol → Nat
  | .start => c.startOff
  | .zero => c.zeroOff
  | .one => c.oneOff
  | .stop => c.stopOff

/-- "every duration of rule R151 is multiplied by n ticks" (R156). -/
def ticks (c : Config) (us : Nat) : Nat := us * c.ticksPerUs

/-- `T_on(s)` in ticks. -/
def onTicks (c : Config) (sym : Symbol) : Nat := ticks c (onUs c sym)

/-- `T_off(s)` in ticks. -/
def offTicks (c : Config) (sym : Symbol) : Nat := ticks c (offUs c sym)

end Sys2Proof.Machine
end

