-- ==== Sys2Proof/Machine/Checksum.lean ====
section
/-! DEFINITION. The checksum unit (40_checksum.md): the pure functions of the document and the operations BUILD and HASH. -/

namespace Sys2Proof.Machine

/-- `rotr8(r) = (r >> 1) | ((r & 1) << 7)` (00_scope.md R9). -/
def rotr8 (r : Byte) : Byte := (r >>> 1) ||| ((r &&& 1) <<< 7)

/-- `lfsr_step(r, tap)` (R100): rotate right by one; XOR the tap mask when the bit rotated out is 1. -/
def lfsrStep (r tap : Byte) : Byte := if r.getLsbD 0 then rotr8 r ^^^ tap else rotr8 r

/-- `lfsr_table(seed, tap, M)` (R101): entry i is the register after step i + 1; the seed is no entry. -/
def lfsrTable (r tap : Byte) : Nat → List Byte
  | 0 => []
  | n + 1 => lfsrStep r tap :: lfsrTable (lfsrStep r tap) tap n

/-- The loop of R105 and R106 over bit positions: a set bit `p` folds in the table byte at `p + off`, "an ordinary integer
sum" (R53); a clear bit reads nothing (R54). The first read that gives no byte ends the loop. -/
def hashFold (rd : Nat → Except TblError Byte) (data : List Byte) (off : Nat) :
    List Nat → Byte → Except TblError Byte
  | [], acc => .ok acc
  | p :: ps, acc =>
    if bitAt data p then
      match rd (p + off) with
      | .ok b => hashFold rd data off ps (acc ^^^ b)
      | .error e => .error e
    else hashFold rd data off ps acc

/-- `T[i]` of a table given as a sequence. -/
def tableEntry (T : List Byte) (i : Nat) : Except TblError Byte :=
  match T[i]? with
  | some b => .ok b
  | none => .error .outOfRange

/-- `hash(data, T, off)` (R105), for any number of bytes, any table, any offset. It "is defined when every index it reads
is inside the table"; elsewhere it answers an error. -/
def hash (data T : List Byte) (off : Nat) : Except TblError Byte :=
  hashFold (tableEntry T) data off (bitPositions data) 0

/-- The applicator over `TBL`, as HASH and GENERATE use it (R106, R140). -/
def hashTbl (s : State) (data : List Byte) (off : Nat) : Except TblError Byte :=
  hashFold (readTbl s) data off (bitPositions data) 0

/-- The end of an operation that used the applicator: a checksum is folded into `acc` and goes on; an index out of range
takes the fault E_RANGE (R54); an entry with no value stops the model (log 5). -/
def withChecksum (s : State) (data : List Byte) (off : Nat) (k : Byte → State) :
    Host.Outcome State Fault Refusal :=
  match hashTbl s data off with
  | .ok b => .next (complete (k b))
  | .error .outOfRange => .next (raiseFault .range s)
  | .error .unwritten => .fault .tableEntryUnwritten

/-- BUILD (R102, R103). The working register `lfsr` ends equal to the last entry (R24). -/
def execBuild (s : State) : Host.Outcome State Fault Refusal :=
  if (accept s).tableValid then .next (raiseFault .rebuild s)
  else
    let table := lfsrTable s.cfg.lfsrSeed s.cfg.lfsrTap s.cfg.tableSize
    .next (complete
      { accept s with
        tbl := s.tbl.writeRange 0 table
        lfsr := table.getLastD s.cfg.lfsrSeed
        tableValid := true })

/-- HASH (R106): `E_NOTABLE` is checked first (R55, R185). -/
def execHash (data : List Byte) (off : Nat) (s : State) : Host.Outcome State Fault Refusal :=
  if (accept s).tableValid then
    withChecksum (accept s) data off fun b => { accept s with acc := b, res := b.setWidth 32 }
  else .next (raiseFault .noTable s)

end Sys2Proof.Machine
end

