-- ==== Sys2Proof/Machine/Message.lean ====
section
/-! DEFINITION. The message encoder (42_message.md): `generate` and the operation GENERATE. -/

namespace Sys2Proof.Machine

/-- The four bytes packed, byte 0 in bits 31..24 (R57, R141). -/
def packFrame (body : List Byte) (chk : Byte) : Frame :=
  packBytes (body.getD 0 0) (body.getD 1 0) (body.getD 2 0) chk

/-- `generate(id, batteryOk, temperature, T)` (R140), at the record's checksum offset (R145). -/
def generate (c : Config) (id : Byte) (batteryOk : Bool) (temperature : Half) (T : List Byte) :
    Except TblError (List Byte) :=
  match hash (frameBody id batteryOk temperature) T c.chkOffset with
  | .ok chk => .ok (frameBody id batteryOk temperature ++ [chk])
  | .error e => .error e

/-- GENERATE (R141). With a legal record no index is out of range; with another, R54 says which fault is taken (log 10). -/
def execGenerate (id : Byte) (batteryOk : Bool) (temperature : Half) (s : State) :
    Host.Outcome State Fault Refusal :=
  if (accept s).tableValid then
    withChecksum (accept s) (frameBody id batteryOk temperature) s.cfg.chkOffset fun b =>
      { accept s with acc := b, res := packFrame (frameBody id batteryOk temperature) b }
  else .next (raiseFault .noTable s)

end Sys2Proof.Machine
end

