-- ==== Sys2Proof/Machine/OokTx.lean ====
section
/-! DEFINITION. The transmitter (43_ook_tx.md): the operation TRANSMIT, the four pulse symbols edge by edge (R157 to R161),
and the pure description of the waveform (R153 to R155). -/

namespace Sys2Proof.Machine

/-- TRANSMIT at the edge that accepts it (R152, R157): the frame is latched, the Start pulse begins at this edge. -/
def execTransmit (b0 b1 b2 b3 : Byte) (s : State) : Host.Outcome State Fault Refusal :=
  .next { accept s with
    txFrame := packBytes b0 b1 b2 b3
    txK := 0
    txPhase := .on
    txTimer := onTicks s.cfg .start
    ookOut := true
    busy := true }

/-- R158: one tick less. -/
def countDown (s : State) : State := { s with txTimer := s.txTimer - 1 }

/-- R159: the off-duration of the symbol begins. -/
def beginOff (sym : Symbol) (s : State) : State :=
  { s with txPhase := .off, ookOut := false, txTimer := offTicks s.cfg sym }

/-- R160: the on-duration of symbol `k` begins. -/
def beginSymbol (k : Fin 34) (s : State) : State :=
  { s with txK := k, txPhase := .on, ookOut := true, txTimer := onTicks s.cfg (symbolAt s.txFrame k) }

/-- R161: the transmission ends; `tx_k`, `tx_timer` and the line keep their values. -/
def endTransmission (s : State) : State := { s with txPhase := .idle, busy := false, done := true }

/-- R160 or R161: what follows the off-duration of the current symbol. -/
def nextSymbol (s : State) : State :=
  if h : s.txK.val < 33 then beginSymbol ⟨s.txK.val + 1, by omega⟩ s else endTransmission s

/-- One clock edge of the pulse of `sym` (R158 to R161). "While `tx_phase = IDLE` the transmitter has no transition"
(R161). A timer of 0 in a pulse is no state of the rules (log 7). -/
def pulseEdge (sym : Symbol) (s : State) : Host.Outcome State Fault Refusal :=
  match s.txPhase with
  | .idle => .next s
  | .on =>
    if s.txTimer = 0 then .fault .txTimerZero
    else if s.txTimer = 1 then .next (beginOff sym s) else .next (countDown s)
  | .off =>
    if s.txTimer = 0 then .fault .txTimerZero
    else if s.txTimer = 1 then .next (nextSymbol s) else .next (countDown s)

/-- Zero (R163): one edge of its pulse. -/
def execZero (s : State) : Host.Outcome State Fault Refusal := pulseEdge .zero s

/-- One (R164): one edge of its pulse. -/
def execOne (s : State) : Host.Outcome State Fault Refusal := pulseEdge .one s

/-- Start (R162): one edge of its pulse. -/
def execStart (s : State) : Host.Outcome State Fault Refusal := pulseEdge .start s

/-- Stop (R165): one edge of its pulse. -/
def execStop (s : State) : Host.Outcome State Fault Refusal := pulseEdge .stop s

/-- `symbols(frame)`, 34 symbols (R153). -/
def symbols (f : Frame) : List Symbol := (List.range 34).map (symbolAt f)

/-- `wave(frame)`: "a list of 68 segments (level, duration in µs)" (R154). -/
def wave (c : Config) (f : Frame) : List (Bool × Nat) :=
  (symbols f).flatMap fun sym => [(true, onUs c sym), (false, offUs c sym)]

/-- The level of a waveform at a microsecond offset; low after its end. -/
def waveAt : List (Bool × Nat) → Nat → Bool
  | [], _ => false
  | (level, d) :: w, u => if u < d then level else waveAt w (u - d)

/-- `t_k`: `t_0 = 0`, `t_(k+1) = t_k + T_on(s_k) + T_off(s_k)` (R154). -/
def symbolStart (c : Config) (f : Frame) : Nat → Nat
  | 0 => 0
  | k + 1 => symbolStart c f k + onUs c (symbolAt f k) + offUs c (symbolAt f k)

/-- `T_total(frame)` in microseconds (R155): the start of the symbol that would follow Stop. -/
def totalUs (c : Config) (f : Frame) : Nat := symbolStart c f 34

/-- `level(frame, u)` (R154): 1 if `t_k <= u < t_k + T_on(s_k)` for some k. -/
def level (c : Config) (f : Frame) (u : Nat) : Bool :=
  (List.range 34).any fun k =>
    decide (symbolStart c f k ≤ u) && decide (u < symbolStart c f k + onUs c (symbolAt f k))

/-- `popcount(frame)` over its 32 bits (R155). -/
def popcount (f : Frame) : Nat := (List.range 32).countP (frameBit f)

end Sys2Proof.Machine
end

