-- ==== Sys2Proof/Machine/Reserved.lean ====
section
/-! DEFINITION. The reserved operation codes (30_encoding.md R86): accepting one takes the fault E_BADOP and changes nothing
else (60_exceptions.md R181, R183). -/

namespace Sys2Proof.Machine

/-- Operation code 101 (R86). -/
def execReserved5 (s : State) : Host.Outcome State Fault Refusal := .next (raiseFault .badOp s)

/-- Operation code 110 (R86). -/
def execReserved6 (s : State) : Host.Outcome State Fault Refusal := .next (raiseFault .badOp s)

/-- Operation code 111 (R86). -/
def execReserved7 (s : State) : Host.Outcome State Fault Refusal := .next (raiseFault .badOp s)

end Sys2Proof.Machine
end

