-- ==== Sys2Proof/Machine/TempCodec.lean ====
section
/-! DEFINITION. The temperature codec (41_tempcodec.md): `convert` and the operation CONVERT. -/

namespace Sys2Proof.Machine

/-- The rounding-table entry (R122): `POS_TABLE` when `whole ≥ 0`, `NEG_TABLE` when `whole < 0`. -/
def roundingEntry (c : Config) (reg : Half) : BitVec 4 :=
  if 0 ≤ wholePart reg then c.posTable.get (fracBin reg).toFin else c.negTable.get (fracBin reg).toFin

/-- `convert(register) = whole * 10 + frac` (R120, R125), computed without wrap (R10). -/
def convert (c : Config) (reg : Half) : Int := wholePart reg * 10 + (roundingEntry c reg).toNat

/-- CONVERT (R125): the `i16` result zero-extended into `res`. It uses no table of the checksum unit and never faults. -/
def execConvert (reg : Half) (s : State) : Host.Outcome State Fault Refusal :=
  .next (complete { accept s with res := (BitVec.ofInt 16 (convert s.cfg reg)).setWidth 32 })

/-- `round_half_away(num / den)` (R126): the nearest integer, a tie going to the larger magnitude. `den` is positive. -/
def roundHalfAway (num den : Int) : Int :=
  if 0 ≤ num then (2 * num + den) / (2 * den) else -((2 * -num + den) / (2 * den))

end Sys2Proof.Machine
end

