-- ==== Sys2Proof/Machine/Sequencer.lean ====
section
/-! DEFINITION. Which code word the sequencer runs at the next rising edge, and how one is put there. -/

namespace Sys2Proof.Machine

/-- The code word of the next edge, if it runs one. A running transmission emits its current symbol (R153, R158 to R161).
Otherwise a command is accepted "at a rising edge of `clk` at which `rst = 0`, `cmd_valid = 1` and `cmd_ready = 1`" (R36). At an
edge with `rst = 1` none is (R210). -/
def fetchWord (s : State) : Option CodeWord :=
  if (portIn s).rst then none
  else if s.txPhase ≠ .idle then some (.sym (symbolCode (symbolAt s.txFrame s.txK)))
  else if (portIn s).cmdValid && cmdReady s then some (.cmd (portIn s).cmd)
  else none

/-- The host presents a command at the next edge and the block is ready for it: idle, not faulted (R36). -/
def presentCommand (s : State) (w : Command) : State :=
  { s with
    busy := false
    fault := 0
    txPhase := .idle
    ookOut := false
    inputs := { portIn s with rst := false, cmdValid := true, cmd := w } :: s.inputs.tail }

/-- The symbol a code stands for (R76). -/
def symbolOf (c : BitVec 2) : Symbol :=
  match c.toNat with
  | 0 => .zero
  | 1 => .one
  | 2 => .start
  | _ => .stop

/-- Where in a frame a symbol can stand: Start first, Stop last, a data bit at bit position 0 (R153). -/
def symbolPlace : Symbol → Fin 34
  | .start => 0
  | .zero => 1
  | .one => 1
  | .stop => 33

/-- The frame with bit position 0 as a symbol needs it. -/
def frameFor (f : Frame) : Symbol → Frame
  | .start => f
  | .zero => f &&& 0x7FFFFFFF
  | .one => f ||| 0x80000000
  | .stop => f

/-- The transmitter stands at the first tick of a symbol's pulse, and the next edge is no reset. -/
def presentSymbol (s : State) (c : BitVec 2) : State :=
  { s with
    busy := true
    done := false
    fault := 0
    txFrame := frameFor s.txFrame (symbolOf c)
    txPhase := .on
    txK := symbolPlace (symbolOf c)
    txTimer := onTicks s.cfg (symbolOf c)
    ookOut := true
    inputs := { portIn s with rst := false } :: s.inputs.tail }

end Sys2Proof.Machine
end

