-- ==== Sys2Proof/Machine/Step.lean ====
section
/-! DEFINITION. One step: one rising edge of `clk` (10_state.md R36, 43_ook_tx.md R156). -/

namespace Sys2Proof.Machine

/-- At an edge `rst` overrides everything (R185, R210); else the sequencer runs the code word it fetches; else nothing
changes but that the host's drive of this edge is used up. -/
def step (s : State) : Host.Outcome State Fault Refusal :=
  if (portIn s).rst then .next (resetBlock (afterEdge s))
  else
    match fetchWord s with
    | some w => exec (decode w) (afterEdge s)
    | none => .next (afterEdge s)

/-- `s` with a code word put where `step` fetches: on the command port of a ready block, or as the symbol a transmission
has reached (log 2, log 14). -/
def State.withFetchWord (s : State) (nbits w : Nat) : State :=
  match codeWordOf nbits w with
  | .ok (.cmd c) => presentCommand s c
  | .ok (.sym c) => presentSymbol s c
  | .error _ => s

end Sys2Proof.Machine
end

