-- ==== Sys2Proof/Safety.lean ====
section
/-! DEFINITION. The words claims are made in: the invariant of every reachable state (10_state.md R40), the checksum's closed
form (R105), the sequencer's transitions (R158 to R161), the host's duties (R199), what is observed of runs (R14), runs, their
product and their end (R222), the report (R197). -/

namespace Sys2Proof.Safety

open Sys2Proof.Machine

/-- `TBL` holds the bytes of `T`, one for each index below TABLE_SIZE (R22). -/
abbrev TableHolds (s : State) (T : List Byte) : Prop :=
  T.length = s.cfg.tableSize ∧ ∀ i < T.length, s.tbl.read i = T[i]?

/-- `lfsr_table(LFSR_SEED, LFSR_TAP, M)` of a record (R23). -/
def builtTable (c : Config) : List Byte := lfsrTable c.lfsrSeed c.lfsrTap c.tableSize

/-- The ticks of the current phase of the current symbol (R157, R159, R160). -/
def phaseTicks (s : State) : Nat :=
  match s.txPhase with
  | .idle => 0
  | .on => onTicks s.cfg (symbolAt s.txFrame s.txK)
  | .off => offTicks s.cfg (symbolAt s.txFrame s.txK)

/-- The invariant. R40 (a) to (e), with what the model's own fields add: the record is legal, the table's storage is in
canonical form and lies below TABLE_SIZE, `fault` holds a code of R181, `done` is 0 during a transmission and after a fault
(R28). The bound of (e) is the phase's own duration, which is at most 9000 in the default record. -/
abbrev StateInv (s : State) : Prop :=
  s.cfg.Legal ∧
  s.tbl.wf ∧ (∀ e ∈ s.tbl, e.1 < s.cfg.tableSize) ∧
  (s.busy = true ↔ s.txPhase ≠ .idle) ∧
  (s.ookOut = true ↔ s.txPhase = .on) ∧
  (s.tableValid = true → TableHolds s (builtTable s.cfg)) ∧
  (s.fault ≠ 0 → s.busy = false) ∧
  (s.txPhase ≠ .idle → 1 ≤ s.txTimer ∧ s.txTimer ≤ phaseTicks s) ∧
  s.fault.toNat ≤ 4 ∧
  (s.busy = true → s.done = false) ∧ (s.fault ≠ 0 → s.done = false)

/-- Every table index that a set bit of the payload selects is below `size` (R105, R54). -/
abbrev IndicesBelow (data : List Byte) (off size : Nat) : Prop :=
  ∀ p < 8 * data.length, bitAt data p = true → p + off < size

/-- The closed form of R105: "XOR over { T[p + off] : 0 ≤ p < 8N, bit(data, p) = 1 }". -/
def checksumOf (data T : List Byte) (off : Nat) : Byte :=
  ((List.range (8 * data.length)).filter (bitAt data)).foldl (fun acc p => acc ^^^ T.getD (p + off) 0) 0

/-- The state after one edge of a running pulse whose off-time is `off` microseconds, as R158, R159, R160 and R161 give it,
in that order. -/
def pulseTarget (off : Nat) (s : State) : State :=
  if 1 < s.txTimer then { s with txTimer := s.txTimer - 1 }
  else if s.txPhase = .on then { s with txPhase := .off, ookOut := false, txTimer := off * s.cfg.ticksPerUs }
  else if h : s.txK.val < 33 then
    { s with
      txK := ⟨s.txK.val + 1, by omega⟩
      txPhase := .on
      ookOut := true
      txTimer := onUs s.cfg (symbolAt s.txFrame (s.txK.val + 1)) * s.cfg.ticksPerUs }
  else { s with txPhase := .idle, busy := false, done := true }

/-- The two readings of the other tap convention (R104). -/
def foldA (r : Byte) : Byte :=
  (if r.getLsbD 0 then r >>> 1 ^^^ 0x18 else r >>> 1) ||| ((BitVec.ofBool (r.getLsbD 0)).setWidth 8 <<< 7)

/-- The second reading (R104). -/
def foldB (r : Byte) : Byte := if r.getLsbD 0 then r >>> 1 ^^^ 0x98 else r >>> 1

/-- The fault a command takes when it is accepted, 0 for none (R181), checked in the order of R185. -/
def faultOf (s : State) : Instr → BitVec 3
  | .build => if s.tableValid then 3 else 0
  | .hash data off => if s.tableValid then (if IndicesBelow data off s.cfg.tableSize then 0 else 4) else 2
  | .convert _ => 0
  | .generate _ _ _ => if s.tableValid then 0 else 2
  | .transmit _ _ _ _ => 0
  | .reserved5 => 1
  | .reserved6 => 1
  | .reserved7 => 1
  | .zero => 0
  | .one => 0
  | .start => 0
  | .stop => 0

/-- The bits of a payload whose index would be at or past `size` are clear (R199 e: "whose payload may have its last bits
set"; log 20). -/
def lastBitsClear (data : List Byte) (off size : Nat) : Bool :=
  (List.range (8 * data.length)).all fun p => decide (p + off < size) || !bitAt data p

/-- The commands a host may issue in a state (R199 a, e, and R180): BUILD once, HASH and GENERATE only after it, HASH with
`M ≥ 8 × len + off` unless the payload's last bits are clear, no reserved operation code. -/
def commandAllowed (s : State) : Instr → Bool
  | .build => !s.tableValid
  | .hash data off =>
    s.tableValid && (decide (8 * data.length + off ≤ s.cfg.tableSize) || lastBitsClear data off s.cfg.tableSize)
  | .convert _ => true
  | .generate _ _ _ => s.tableValid
  | .transmit _ _ _ _ => true
  | .reserved5 => false
  | .reserved6 => false
  | .reserved7 => false
  | .zero => false
  | .one => false
  | .start => false
  | .stop => false

/-- The host presents at the edge after the coming one what it presents at the coming one, or resets the block then (R199 b:
"or hold it until accepted"; log 20). -/
abbrev HoldsCommand (s : State) : Prop :=
  (portIn (afterEdge s)).rst = true ∨
  ((portIn (afterEdge s)).cmdValid = true ∧ (portIn (afterEdge s)).cmd = (portIn s).cmd)

/-- The host's duties on the command port at the coming edge (R199 a, b, e). A command presented when `cmd_ready` is 1 is one
that the host may issue; one presented when `cmd_ready` is 0 is held for the next edge. -/
abbrev DutiesMet (s : State) : Prop :=
  (portIn s).rst = false → (portIn s).cmdValid = true →
    (cmdReady s = true → commandAllowed s (decodeCommand (portIn s).cmd) = true) ∧
    (cmdReady s = false → HoldsCommand s)

/-- A command is accepted at the coming edge (R36). -/
def acceptsCommand (s : State) : Bool :=
  match fetchWord s with
  | some (.cmd _) => true
  | some (.sym _) => false
  | none => false

/-- "the next of these" (R216): HASH, CONVERT and GENERATE write `res` (R26). -/
def writesRes : Instr → Bool
  | .build => false
  | .hash _ _ => true
  | .convert _ => true
  | .generate _ _ _ => true
  | .transmit _ _ _ _ => false
  | .reserved5 => false
  | .reserved6 => false
  | .reserved7 => false
  | .zero => false
  | .one => false
  | .start => false
  | .stop => false

/-- One edge of a run: the state with the edge's port values, and the state the edge leads to. -/
structure Tick where
  before : State
  after : State
deriving DecidableEq, Repr

/-- A command that writes `res` is accepted at this edge, and completes (R26: "A faulting operation leaves `res` unchanged"). -/
def writesResult (k : Tick) : Bool :=
  acceptsCommand k.before && writesRes (decodeCommand (portIn k.before).cmd) && k.after.done

/-- What a host does between the last edge and the coming one, beside driving the ports (R199 c, d). -/
structure HostMove where
  /-- It reads `res`. -/
  readsRes : Bool
  /-- It sleeps or stops `clk` before the coming edge. -/
  pauses : Bool
deriving DecidableEq, Repr

/-- What a host knows of `res` between two edges (R199 c). -/
structure HostView where
  /-- `done` has been 1 after some edge since the last reset, so the value in `res` is complete: a command that writes `res`
  sets `done` at the edge that accepts it (R28), and a later TRANSMIT, which clears `done`, leaves `res` as it is (R216). -/
  doneSeen : Bool
  /-- `res` holds a result the host has not read. -/
  unread : Bool
deriving DecidableEq, Repr

/-- What a host knows right after reset: nothing has been `done`, no result waits. -/
def HostView.reset : HostView := ⟨false, false⟩

/-- What a host knows after an edge before which it made the move `m`. A reset leaves nothing to read. -/
def HostView.after (v : HostView) (m : HostMove) (k : Tick) : HostView where
  doneSeen := !(portIn k.before).rst && (k.after.done || v.doneSeen)
  unread := !(portIn k.before).rst && (writesResult k || (v.unread && !m.readsRes))

/-- R199 (c): "Read `res` after `done = 1` and before the next command that writes `res`". A read may come as late as during
the TRANSMITs that follow (R216). -/
abbrev ReadsInTime (m : HostMove) (v : HostView) (k : Tick) : Prop :=
  (m.readsRes = true → v.doneSeen = true) ∧ (v.unread = true → writesResult k = true → m.readsRes = true)

/-- The host's duties toward the block at one edge (R199 a to e). Duties (f) and (g) are of hosts and host registers outside
the block (R5). -/
abbrev HostDutiesMet (m : HostMove) (v : HostView) (k : Tick) : Prop :=
  DutiesMet k.before ∧ ReadsInTime m v k ∧ (m.pauses = true → k.before.busy = false)

/-- The host keeps its duties along a run: at every edge, with what it knows carried from edge to edge. -/
def keepsDuties : HostView → List (HostMove × Tick) → Bool
  | _, [] => true
  | v, (m, k) :: rest => decide (HostDutiesMet m v k) && keepsDuties (v.after m k) rest

/-- The host asserts no reset at the next `n` edges. -/
abbrev NoResetFor (n : Nat) (s : State) : Prop := ∀ p ∈ s.inputs.take n, p.rst = false

/-- `n` edges, one after another, up to a stop of the model. -/
def edges : Nat → State → Host.Outcome State Fault Refusal
  | 0, s => .next s
  | n + 1, s =>
    match step s with
    | .next t => edges n t
    | .fault r => .fault r
    | .refused r => .refused r

/-! ## Runs and what they show -/

/-- The next `n` edges, up to a stop of the model. -/
def ticksAlong : Nat → State → List Tick
  | 0, _ => []
  | n + 1, s =>
    match step s with
    | .next t => ⟨s, t⟩ :: ticksAlong n t
    | .fault _ => []
    | .refused _ => []

/-- The host keeps its duties (R199) with the given moves, one before each of the next edges, from a state right after
reset. -/
def dutiesKeptFromReset (moves : List HostMove) (s : State) : Bool :=
  keepsDuties HostView.reset (moves.zip (ticksAlong moves.length s))

/-- The output ports before the first edge and after each of the next `n` (R36). -/
def history (n : Nat) (s : State) : List PortOut := portOut s :: (ticksAlong n s).map fun k => portOut k.after

/-- The table as the read-back port shows it, one byte for each `tbl_raddr` (R38). -/
def tableSeen (s : State) : List Byte := (List.range 32).map fun i => tblRdata s (BitVec.ofNat 5 i)

/-- What is observed of the block after an operation (R14 a): "the result register `res`, the status signals and the table". -/
structure Seen where
  res : BitVec 32
  cmdReady : Bool
  busy : Bool
  done : Bool
  fault : BitVec 3
  tableValid : Bool
  table : List Byte
deriving DecidableEq, Repr

/-- What a state shows (R14 a). -/
def seen (s : State) : Seen where
  res := s.res
  cmdReady := cmdReady s
  busy := s.busy
  done := s.done
  fault := s.fault
  tableValid := s.tableValid
  table := tableSeen s

/-- An operation ends at this edge: a command accepted at it leaves the block not busy, or a transmission ends (R27, R221).
A reset ends no operation; it cuts one off (R212). -/
def operationEnds (k : Tick) : Bool :=
  !(portIn k.before).rst && !k.after.busy && (k.before.busy || acceptsCommand k.before)

/-- "What the run produced" (R222) and what is observed of it (R14). -/
structure RunProduct where
  /-- What is seen after each operation, in order, `res` among it. -/
  results : List Seen
  /-- The final table. -/
  table : List Byte
  /-- `ook_out`, one level a tick: the state before the first edge, then the state after each edge (log 21). -/
  line : List Bool
deriving DecidableEq, Repr

/-- The product of the edges `ticks` from `start`. -/
def productOf (start : State) (ticks : List Tick) : RunProduct where
  results := (ticks.filter operationEnds).map fun k => seen k.after
  table := tableSeen ((ticks.getLast?.map Tick.after).getD start)
  line := start.ookOut :: ticks.map fun k => k.after.ookOut

/-- `ook_out` as a function of time in microseconds (R14 b), at `n` ticks to the microsecond (R156); low after the history's
end (log 21). -/
def lineAt (n : Nat) (line : List Bool) (time : Rat) : Bool := line.getD (time * n).floor.toNat false

/-- "Two runs are the same exactly when these agree" (R14): what is seen after each operation, and the line at every time. The
runs have `n` and `n'` ticks to the microsecond. -/
def SameRun (n n' : Nat) (a b : RunProduct) : Prop :=
  a.results = b.results ∧ ∀ time : Rat, 0 ≤ time → lineAt n a.line time = lineAt n' b.line time

/-- A command of a host's list: its word, given what `res` shows when it is presented. A command that carries no result is a
constant function. -/
abbrev HostCommand := BitVec 32 → Command

/-- A run of R222 under way. -/
structure HostRun where
  /-- The state the run starts from. -/
  start : State
  /-- The commands not presented yet. -/
  left : List HostCommand
  /-- A command has been presented. -/
  issued : Bool
  state : State
  /-- The edges so far, in order. -/
  ticks : List Tick

/-- The run of a list of commands from a state. -/
def hostRun (s : State) (commands : List HostCommand) : HostRun := ⟨s, commands, false, s, []⟩

/-- "a finite list of commands issued in order from the reset state" (R222), for any record. -/
def runFromReset (c : Config) (commands : List HostCommand) : HostRun := hostRun { State.reset with cfg := c } commands

/-- The host presents its next command "at the first edge with `cmd_ready = 1` after the previous one completed" (R222): it
waits for `done = 1` (R197, R28). -/
def mayPresent (h : HostRun) : Bool := cmdReady h.state && (!h.issued || h.state.done)

/-- What the host of R222 drives at the coming edge, and the commands then left. -/
def hostDrive (h : HostRun) : PortIn × List HostCommand :=
  match h.left with
  | [] => (idlePorts, [])
  | c :: cs =>
    if mayPresent h then ({ idlePorts with cmdValid := true, cmd := c h.state.res }, cs) else (idlePorts, c :: cs)

/-- One edge of a run of R222. -/
def hostEdge (h : HostRun) : Host.Outcome HostRun Fault Refusal :=
  let s := { h.state with inputs := [(hostDrive h).1] }
  match step s with
  | .next t => .next ⟨h.start, (hostDrive h).2, h.issued || (hostDrive h).1.cmdValid, t, h.ticks ++ [⟨s, t⟩]⟩
  | .fault r => .fault r
  | .refused r => .refused r

/-- `n` edges of a run of R222. -/
def commandRun : Nat → HostRun → Host.Outcome HostRun Fault Refusal
  | 0, h => .next h
  | n + 1, h =>
    match hostEdge h with
    | .next h' => commandRun n h'
    | .fault r => .fault r
    | .refused r => .refused r

/-- What a run has produced (R222). -/
def HostRun.product (h : HostRun) : RunProduct := productOf h.start h.ticks

/-- "a state with `fault ≠ 0` is stopped, not ended" (R222), "never final" (R187). -/
abbrev Stopped (s : State) : Prop := s.fault ≠ 0

/-- "The run has ended when the last command has been accepted and `busy = 0`" (R222), and is not stopped (R187). -/
abbrev Ended (h : HostRun) : Prop := h.left = [] ∧ h.state.busy = false ∧ ¬ Stopped h.state

/-- "It ended well if `fault = 0`" (R222). A run that ended did so well: with a fault it is stopped, not ended. -/
abbrev EndedWell (h : HostRun) : Prop := Ended h ∧ h.state.fault = 0

/-! ## The host's report -/

/-- TX_REPEAT, the host's constant (R6). -/
def txRepeat : Nat := 7

/-- BATT_LOW_MV, the host's constant (R6). -/
def battLowMv : Nat := 2000

/-- `batteryOk = not (mv < BATT_LOW_MV)` (R196). DESIGN CHOICE (log 19): `mv` is a rational number, which holds a whole `mv` and
an exact quotient alike; R195 and 91_not_in_source.md N15 leave the arithmetic and its rounding open. -/
def batteryOk (mv : Rat) : Bool := !decide (mv < battLowMv)

/-- The word of a code word. A symbol code is no command (R90), and no host issues one. -/
def commandOf : CodeWord → Command
  | .cmd w => w
  | .sym c => c.setWidth 35

/-- The first command of a report (R197). -/
def reportTemp (reg : Half) : Instr := .convert reg

/-- GENERATE of a report (R197): the host carries `temp` from `res[15:0]`. -/
def reportFrame (id : Byte) (battOk : Bool) (res : BitVec 32) : Instr :=
  .generate id battOk (res.extractLsb' 0 16)

/-- TRANSMIT of a report (R197): the host carries `frame` from `res[31:0]`, which TRANSMIT leaves as it is (R216). -/
def reportTransmit (res : BitVec 32) : Instr :=
  .transmit (res.extractLsb' 24 8) (res.extractLsb' 16 8) (res.extractLsb' 8 8) (res.extractLsb' 0 8)

/-- A report, as commands to the block (R197): CONVERT, GENERATE, then TRANSMIT TX_REPEAT times, each with what `res` shows
after the one before. -/
def reportCommands (id : Byte) (battOk : Bool) (reg : Half) : List HostCommand :=
  (fun _ => commandOf (encode (reportTemp reg))) ::
  (fun res => commandOf (encode (reportFrame id battOk res))) ::
  List.replicate txRepeat fun res => commandOf (encode (reportTransmit res))

/-- A report from a state of the block (R197); `mayPresent` waits for `done = 1` before each command but the first. -/
def reportRun (s : State) (id : Byte) (battOk : Bool) (reg : Half) : HostRun := hostRun s (reportCommands id battOk reg)

end Sys2Proof.Safety
end

