-- ==== Sys2Proof/Certificates/Slice0/Obligations.lean ====
section
/-! DEFINITION. The statements for the provers. Each docstring names the rules of spec/ it formalises. -/

open Sys2Proof Sys2Proof.Machine Sys2Proof.Safety

/-! ## Encoding -/

/-- Decoding the code word of a well-formed instruction gives the instruction back, with every operand at every value the
encoding admits (30_encoding.md section 3). -/
def Obligations.DecodeInvertsEncode : Prop :=
  ∀ i : Instr, i.WellFormed → decode (encode i) = i

/-- The operand layouts of R80, field by field, with any value in the bits it calls ignored (R87): what each command word
means. `x` is ignored. -/
def Obligations.CommandWordsMeanTheirFields : Prop :=
  (∀ x : BitVec 32, decodeCommand (0b000#3 ++ x) = .build) ∧
  (∀ (n : BitVec 2) (x : BitVec 1) (off : BitVec 5) (b0 b1 b2 : Byte),
    decodeCommand (0b001#3 ++ n ++ x ++ off ++ b0 ++ b1 ++ b2) = .hash ([b0, b1, b2].take n.toNat) off.toNat) ∧
  (∀ (x : BitVec 16) (reg : Half), decodeCommand (0b010#3 ++ x ++ reg) = .convert reg) ∧
  (∀ (id : Byte) (x : BitVec 7) (b : Bool) (t : Half),
    decodeCommand (0b011#3 ++ id ++ x ++ BitVec.ofBool b ++ t) = .generate id b t) ∧
  (∀ b0 b1 b2 b3 : Byte, decodeCommand (0b100#3 ++ b0 ++ b1 ++ b2 ++ b3) = .transmit b0 b1 b2 b3) ∧
  (∀ x : BitVec 32, decodeCommand (0b101#3 ++ x) = .reserved5) ∧
  (∀ x : BitVec 32, decodeCommand (0b110#3 ++ x) = .reserved6) ∧
  (∀ x : BitVec 32, decodeCommand (0b111#3 ++ x) = .reserved7)

/-- The command words the spec writes out (R81 to R85, 95_test_vectors.md section 2.5) and the symbol codes of R76 decode to
the instructions it names. -/
def Obligations.WrittenOutWordsDecode : Prop :=
  decodeCommand 0x000000000 = .build ∧
  decodeCommand 0x1C4E68136 = .hash [0xE6, 0x81, 0x36] 4 ∧
  decodeCommand 0x200004B00 = .convert 0x4B00 ∧
  decodeCommand 0x3E6010136 = .generate 0xE6 true 310 ∧
  decodeCommand 0x4E6813613 = .transmit 0xE6 0x81 0x36 0x13 ∧
  decodeCommand 0x500000000 = .reserved5 ∧
  decodeCommand 0x7FFFFFFFF = .reserved7 ∧
  [decodeSymbol 0b00, decodeSymbol 0b01, decodeSymbol 0b10, decodeSymbol 0b11] =
    [Instr.zero, Instr.one, Instr.start, Instr.stop]

/-! ## The step -/

/-- At an edge at which the sequencer has a code word to run, the step is the meaning of the decoded instruction on the
state with this edge's port values used up; nothing else is added around it. -/
def Obligations.StepRunsTheDecodedInstruction : Prop :=
  ∀ (s : State) (w : CodeWord) (i : Instr), fetchWord s = some w → decode w = i →
    step s = exec i { s with inputs := s.inputs.tail }

/-- A command presented with `rst` = 0, `cmd_valid` = 1 and `cmd_ready` = 1 is accepted: the step is the meaning of its
decoding (R36). -/
def Obligations.AcceptedCommandRuns : Prop :=
  ∀ s : State, s.txPhase = .idle → s.busy = false → s.fault = 0 →
    (portIn s).rst = false → (portIn s).cmdValid = true →
    step s = exec (decodeCommand (portIn s).cmd) { s with inputs := s.inputs.tail }

/-- At an edge with neither reset, nor a running transmission, nor a command, nothing in the block changes (R207: "no state
changes without a command"). -/
def Obligations.NothingChangesWithoutACommand : Prop :=
  ∀ s : State, s.txPhase = .idle → (portIn s).rst = false → (portIn s).cmdValid = false →
    step s = .next { s with inputs := s.inputs.tail }

/-- R39: after an edge with `rst` = 1, from whatever state, every element with a reset value has it, and the derived outputs
show theirs. -/
def Obligations.ResetEdgeGivesResetValues : Prop :=
  ∀ s : State, (portIn s).rst = true →
    ∃ t, step s = .next t ∧
      t.tableValid = false ∧ t.res = 0x00000000 ∧ t.busy = false ∧ t.done = false ∧ t.fault = 0 ∧
      t.txPhase = .idle ∧ t.ookOut = false ∧ cmdReady t = true ∧ (∀ a : BitVec 5, tblRdata t a = 0x00)

/-- The reset state itself has the reset values of R39. That its record is the default one of R6 is the model's choice
(log 3). -/
def Obligations.ResetStateHasResetValues : Prop :=
  State.reset.tableValid = false ∧ State.reset.res = 0x00000000 ∧ State.reset.busy = false ∧
  State.reset.done = false ∧ State.reset.fault = 0 ∧ State.reset.txPhase = .idle ∧ State.reset.ookOut = false ∧
  cmdReady State.reset = true ∧ (∀ a : BitVec 5, tblRdata State.reset a = 0x00) ∧
  State.reset.cfg = defaultConfig

/-- While `cmd_ready` is 0 (a transmission runs, or a fault is held) a step does not depend on the command port at all
(R37, R215). -/
def Obligations.CommandPortIsIgnoredUnlessReady : Prop :=
  ∀ (s : State) (p p' : PortIn) (rest : List PortIn), p.rst = p'.rst → cmdReady s = false →
    step { s with inputs := p :: rest } = step { s with inputs := p' :: rest }

/-- R29: once `fault` is non-zero it is never changed except by reset, and while it is non-zero no command is accepted. -/
def Obligations.FaultIsStickyUntilReset : Prop :=
  ∀ s : State, s.fault ≠ 0 → (portIn s).rst = false →
    (∀ w : Command, fetchWord s ≠ some (.cmd w)) ∧ ∀ t, step s = .next t → t.fault = s.fault

/-- R187, 93_implementation_defined.md item 6: the block after a fault is frozen: with no reset every step leaves it as it
is, whatever command is presented. The premises are invariants of every reachable state (R40 a, d). -/
def Obligations.FaultedBlockStaysAsItIs : Prop :=
  ∀ s : State, StateInv s → s.fault ≠ 0 → (portIn s).rst = false → step s = .next { s with inputs := s.inputs.tail }

/-- No step writes the configuration record (R6: "none is writable while the block runs"), and every step uses up exactly
one edge of the host's drive. -/
def Obligations.RecordIsNeverWritten : Prop :=
  ∀ s t : State, step s = .next t → t.cfg = s.cfg ∧ t.inputs = s.inputs.tail

/-- In every state of the invariant a step answers a next state: the model's own stops are in no reachable state. -/
def Obligations.StepAlwaysAnswersANextState : Prop :=
  ∀ s : State, StateInv s → ∃ t, step s = .next t

/-! ## The invariant (R40) -/

/-- Every step from a state of the invariant leads to a state of the invariant: R40 (a) to (e), the table's canonical form,
`done` and `fault` as R28 and R181 say. -/
def Obligations.StepKeepsTheInvariant : Prop :=
  ∀ s t : State, StateInv s → step s = .next t → StateInv t

/-- The state after reset meets the invariant, for every legal record and whatever the host will drive. -/
def Obligations.ResetMeetsTheInvariant : Prop :=
  ∀ (c : Config) (drive : List PortIn), c.Legal → StateInv { State.reset with cfg := c, inputs := drive }

/-- R40 (e) for the default record: the timer is between 1 and 9000 while a transmission runs. -/
def Obligations.TimerStaysWithinNineThousand : Prop :=
  ∀ s : State, StateInv s → s.cfg = defaultConfig → s.txPhase ≠ .idle → 1 ≤ s.txTimer ∧ s.txTimer ≤ 9000

/-! ## The checksum unit -/

/-- R101: entry i of the table is the seed stepped i + 1 times; a longer table extends a shorter one; M = 0 gives the empty
table. -/
def Obligations.TableEntriesAreSteppedSeeds : Prop :=
  (∀ seed tap : Byte, lfsrTable seed tap 0 = []) ∧
  (∀ (seed tap : Byte) (M i : Nat), i < M →
    (lfsrTable seed tap M)[i]? = some ((fun r => lfsrStep r tap)^[i + 1] seed)) ∧
  (∀ (seed tap : Byte) (M M' i : Nat), i < min M M' → (lfsrTable seed tap M)[i]? = (lfsrTable seed tap M')[i]?) ∧
  (∀ (seed tap : Byte) (M : Nat), (lfsrTable seed tap M).length = M) ∧
  (defaultConfig.lfsrSeed = 0x7C ∧ defaultConfig.lfsrTap = 0x18 ∧ defaultConfig.tableSize = 28)

/-- R100: bit i of a step, for every register and tap: the rotated bit, flipped by the tap's bit when the bit rotated out
was 1. -/
def Obligations.StepRotatesRightAndTaps : Prop :=
  ∀ (r tap : Byte) (i : Nat), i < 8 →
    (lfsrStep r tap).getLsbD i = ((r.getLsbD ((i + 1) % 8)) ^^ (r.getLsbD 0 && tap.getLsbD i))

/-- R109: the reference output, and the four further entries of a 32-entry table. -/
def Obligations.ReferenceTable : Prop :=
  lfsrTable 0x7C 0x18 28 =
    [0x3e, 0x1f, 0x97, 0xd3, 0xf1, 0xe0, 0x70, 0x38, 0x1c, 0x0e, 0x07, 0x9b, 0xd5, 0xf2, 0x79, 0xa4,
      0x52, 0x29, 0x8c, 0x46, 0x23, 0x89, 0xdc, 0x6e, 0x37, 0x83, 0xd9, 0xf4] ∧
  lfsrTable 0x7C 0x18 32 = lfsrTable 0x7C 0x18 28 ++ [0x7a, 0x3d, 0x86, 0x43]

/-- R104: both readings of the first tap convention are the step of R100 with tap `0x18`. -/
def Obligations.TapConventionsAreOneFunction : Prop :=
  ∀ r : Byte, foldA r = lfsrStep r 0x18 ∧ foldB r = lfsrStep r 0x18

/-- R110, items 1 to 4: a bijection with exactly the fixed points `0x00` and `0xEF`; the seed returns after 127 steps and no
sooner, and so do the table's entries; 32 pairwise different non-zero entries; entry 4. -/
def Obligations.RecurrenceProperties : Prop :=
  Function.Bijective (fun r => lfsrStep r 0x18) ∧
  (∀ r, lfsrStep r 0x18 = r ↔ r = 0x00 ∨ r = 0xEF) ∧
  (∀ r, (fun r => lfsrStep r 0x18)^[127] r = r) ∧
  (∀ n < 127, 0 < n → (fun r => lfsrStep r 0x18)^[n] 0x7C ≠ 0x7C) ∧
  (∀ i, (lfsrTable 0x7C 0x18 (i + 128))[i + 127]? = (lfsrTable 0x7C 0x18 (i + 128))[i]?) ∧
  ((lfsrTable 0x7C 0x18 32).Nodup ∧ 0x00 ∉ lfsrTable 0x7C 0x18 32) ∧
  (lfsrTable 0x7C 0x18 32)[4]? = some 0xF1

/-- R102 and R103. Before the table is built BUILD writes entry i with byte i of `lfsr_table(LFSR_SEED, LFSR_TAP, M)` for
every i below M and no other index, leaves `lfsr` at the last entry, sets `table_valid` and `done`, and changes nothing else.
After it, BUILD takes E_REBUILD and leaves the table as it is. -/
def Obligations.BuildFillsTheTableOnce : Prop :=
  (∀ s : State, s.tableValid = false →
    ∃ t, exec .build s = .next t ∧
      (∀ i < s.cfg.tableSize,
        t.tbl.read i = some ((fun r => lfsrStep r s.cfg.lfsrTap)^[i + 1] s.cfg.lfsrSeed)) ∧
      (∀ i ≥ s.cfg.tableSize, t.tbl.read i = s.tbl.read i) ∧
      t = { s with
        tbl := t.tbl
        lfsr := (fun r => lfsrStep r s.cfg.lfsrTap)^[s.cfg.tableSize] s.cfg.lfsrSeed
        tableValid := true
        done := true }) ∧
  (∀ s : State, s.tableValid = true → exec .build s = .next { s with fault := 3, done := false })

/-- R51, R61: with no reset, a step changes the table only by a BUILD accepted while `table_valid` is 0. -/
def Obligations.OnlyBuildWritesTheTable : Prop :=
  ∀ s t : State, step s = .next t → (portIn s).rst = false → t.tbl ≠ s.tbl →
    s.tableValid = false ∧ ∃ w, fetchWord s = some (.cmd w) ∧ decodeCommand w = .build

/-- R105: the applicator is the XOR of the table bytes that the set bits select, where every index is inside the table; and
elsewhere it gives no value (R54). -/
def Obligations.HashIsTheXorOfSelectedEntries : Prop :=
  (∀ (data T : List Byte) (off : Nat), IndicesBelow data off T.length →
    hash data T off = .ok (checksumOf data T off)) ∧
  (∀ (data T : List Byte) (off : Nat), ¬ IndicesBelow data off T.length → hash data T off = .error .outOfRange)

/-- R107 items 1 and 2: the hash of an all-zero payload is 0, whatever the table and the offset; and the applicator is linear
over payloads of one length. -/
def Obligations.HashIsLinear : Prop :=
  (∀ (n : Nat) (T : List Byte) (off : Nat), hash (List.replicate n 0x00) T off = .ok 0x00) ∧
  (∀ (a b T : List Byte) (off : Nat) (x y : Byte), a.length = b.length →
    hash a T off = .ok x → hash b T off = .ok y → hash (List.zipWith (· ^^^ ·) a b) T off = .ok (x ^^^ y))

/-- R107 items 3 and 4: a payload with only bit position p set hashes to `T[p + off]`, and flipping payload bit p flips the
checksum by `T[p + off]`. -/
def Obligations.OneBitSelectsOneEntry : Prop :=
  (∀ (data T : List Byte) (off p : Nat) (v : Byte), p < 8 * data.length →
    (∀ q < 8 * data.length, bitAt data q = decide (q = p)) → T[p + off]? = some v → hash data T off = .ok v) ∧
  (∀ (a b T : List Byte) (off p : Nat) (v x : Byte), a.length = b.length → p < 8 * a.length →
    (∀ q < 8 * a.length, bitAt b q = (bitAt a q ^^ decide (q = p))) → T[p + off]? = some v →
    hash a T off = .ok x → hash b T off = .ok (x ^^^ v))

/-- R107 item 5: concatenated payloads. -/
def Obligations.HashOfConcatenation : Prop :=
  ∀ (a b T : List Byte) (off : Nat) (x y : Byte), hash a T off = .ok x →
    hash b T (off + 8 * a.length) = .ok y → hash (a ++ b) T off = .ok (x ^^^ y)

/-- R107 item 6: the result does not depend on the order in which the bit positions are folded. -/
def Obligations.FoldOrderDoesNotMatter : Prop :=
  ∀ (data T : List Byte) (off : Nat) (ps : List Nat), ps.Perm (bitPositions data) →
    hashFold (tableEntry T) data off ps 0 = hash data T off

/-- R106, R54: HASH in every case. Before BUILD it takes E_NOTABLE, whatever the payload. With the table built: where every
index that a set bit selects is below M, `res` is the checksum zero-extended, `acc` the checksum, `done` is 1; where some set
bit's index is at or past M it takes E_RANGE. Nothing else changes in any case; that `acc` too is as before after E_RANGE is
R183 as log 16 reads it against the order of R106's pseudocode. -/
def Obligations.HashResultAndFaults : Prop :=
  ∀ (s : State) (data T : List Byte) (off : Nat),
    (s.tableValid = false → exec (.hash data off) s = .next { s with fault := 2, done := false }) ∧
    (s.tableValid = true → TableHolds s T → IndicesBelow data off s.cfg.tableSize →
      exec (.hash data off) s =
        .next { s with
          acc := checksumOf data T off
          res := (checksumOf data T off).setWidth 32
          done := true }) ∧
    (s.tableValid = true → TableHolds s T → ¬ IndicesBelow data off s.cfg.tableSize →
      exec (.hash data off) s = .next { s with fault := 4, done := false })

/-- R38: the read-back port, at any time; reading has no side effect, since no step depends on the index. -/
def Obligations.ReadBackPortShowsTheTable : Prop :=
  (∀ (s : State) (T : List Byte) (a : BitVec 5), (portIn s).tblRaddr = a →
    (s.tableValid = true → TableHolds s T → ∀ v, T[a.toNat]? = some v → (portOut s).tblRdata = v) ∧
    (s.tableValid = false ∨ s.cfg.tableSize ≤ a.toNat → (portOut s).tblRdata = 0x00)) ∧
  (∀ (s : State) (p : PortIn) (a : BitVec 5) (rest : List PortIn),
    step { s with inputs := { p with tblRaddr := a } :: rest } = step { s with inputs := p :: rest })

/-! ## The temperature codec -/

/-- R125: CONVERT. `whole` is the register's floor by 128, the fraction index its bits 6..3, the table chosen by the sign of
`whole`; the result's 16-bit pattern goes zero-extended to `res`, `done` is set, nothing else changes. -/
def Obligations.ConvertResult : Prop :=
  ∀ (s : State) (reg : Half),
    exec (.convert reg) s =
      .next { s with
        res := (BitVec.ofInt 16 (reg.toInt / 128 * 10 +
          (if 0 ≤ reg.toInt / 128 then s.cfg.posTable.toList.getD (reg.toNat / 8 % 16) 0
           else s.cfg.negTable.toList.getD (reg.toNat / 8 % 16) 0).toNat)).setWidth 32
        done := true }

/-- R126: with the tables of this hardware `convert` is the temperature in tenths of a degree, rounded to nearest, ties away
from zero. -/
def Obligations.ConvertRoundsHalfAwayFromZero : Prop :=
  ∀ (c : Config) (reg : Half), c.posTable = posTable → c.negTable = negTable →
    convert c reg = roundHalfAway (10 * (reg.toInt / 8)) 16

/-- R127: the ranges of the whole part, of the fraction and of the result; the extremes; the 16-bit pattern loses nothing. -/
def Obligations.ConvertRange : Prop :=
  (∀ (c : Config) (reg : Half), c.posTable = posTable → c.negTable = negTable →
    (-256 ≤ wholePart reg ∧ wholePart reg ≤ 255) ∧ (roundingEntry c reg).toNat ≤ 9 ∧
    (-2560 ≤ convert c reg ∧ convert c reg ≤ 2559) ∧
    (BitVec.ofInt 16 (convert c reg)).toInt = convert c reg) ∧
  convert defaultConfig 0x7FFF = 2559 ∧ convert defaultConfig 0x8000 = -2560

/-- R128: bits 2..0 of the register never affect the result; they are truncated, not rounded. -/
def Obligations.ConvertIgnoresLowThreeBits : Prop :=
  (∀ (c : Config) (reg : Half), convert c reg = convert c (reg &&& 0xFFF8)) ∧
  convert defaultConfig 0x0007 = 0 ∧ convert defaultConfig 0xFFFF = -1

/-- R129: monotonic, and symmetric where the low three bits are zero, except at `0x8000`. -/
def Obligations.ConvertIsMonotonicAndOdd : Prop :=
  (∀ a b : Half, a.toInt ≤ b.toInt → convert defaultConfig a ≤ convert defaultConfig b) ∧
  (∀ r : Half, r &&& 0x7 = 0 → r ≠ 0x8000 → convert defaultConfig (-r) = -convert defaultConfig r)

/-! ## The message encoder -/

/-- R141 with R140: GENERATE in every case. Before BUILD it takes E_NOTABLE. With the table built and a record whose table
is long enough, `res` is `[id, {batteryOk, 000, t[11:8]}, t[7:0], checksum]`, byte 0 highest, `acc` the checksum, `done` is 1;
nothing else changes. -/
def Obligations.GenerateResultAndFaults : Prop :=
  ∀ (s : State) (T : List Byte) (id : Byte) (ok : Bool) (t : Half),
    (s.tableValid = false → exec (.generate id ok t) s = .next { s with fault := 2, done := false }) ∧
    (s.tableValid = true → TableHolds s T → 24 + s.cfg.chkOffset ≤ s.cfg.tableSize →
      ∀ chk, chk = checksumOf [id, BitVec.ofBool ok ++ 0b000#3 ++ t.extractLsb' 8 4, t.extractLsb' 0 8] T s.cfg.chkOffset →
      exec (.generate id ok t) s =
        .next { s with
          acc := chk
          res := id ++ BitVec.ofBool ok ++ 0b000#3 ++ t.extractLsb' 8 4 ++ t.extractLsb' 0 8 ++ chk
          done := true })

/-- R147 and 95_test_vectors.md section 1.3: the document's two frames and its checksum. -/
def Obligations.DocumentFrames : Prop :=
  generate defaultConfig 0xE6 true 310 (builtTable defaultConfig) = .ok [0xE6, 0x81, 0x36, 0x13] ∧
  generate defaultConfig 0xE6 false 310 (builtTable defaultConfig) = .ok [0xE6, 0x01, 0x36, 0xC6] ∧
  hash [0xE6, 0x81, 0x36] (builtTable defaultConfig) 4 = .ok 0x13

/-- R143: changing only `batteryOk` changes byte 1 by `0x80` and the checksum by `TBL[12] = 0xD5`. -/
def Obligations.BatteryBitChangesTwoBytes : Prop :=
  ∀ (id : Byte) (t : Half), ∃ b1 chk : Byte,
    b1 &&& 0xF0 = 0x00 ∧
    generate defaultConfig id false t (builtTable defaultConfig) = .ok [id, b1, t.extractLsb' 0 8, chk] ∧
    generate defaultConfig id true t (builtTable defaultConfig) =
      .ok [id, b1 ^^^ 0x80, t.extractLsb' 0 8, chk ^^^ 0xD5]

/-- R146 (a) to (c), for every record: a frame has exactly 4 bytes, its last is the hash of the first three at the record's
offset, bits 6..4 of byte 1 are 0; and (d) the frame of id 0, battery low, temperature 0 is all zeros and the only such frame. -/
def Obligations.FrameShape : Prop :=
  (∀ (c : Config) (id : Byte) (ok : Bool) (t : Half) (T f : List Byte), generate c id ok t T = .ok f →
    ∃ f0 f1 f2 f3, f = [f0, f1, f2, f3] ∧ hash [f0, f1, f2] T c.chkOffset = .ok f3 ∧ f1 &&& 0x70 = 0) ∧
  (∀ (c : Config) (T : List Byte), generate c 0x00 false 0 T = .ok [0x00, 0x00, 0x00, 0x00]) ∧
  (∀ (c : Config) (id : Byte) (ok : Bool) (t : Half) (T : List Byte),
    generate c id ok t T = .ok [0x00, 0x00, 0x00, 0x00] → id = 0x00 ∧ ok = false ∧ t.extractLsb' 0 12 = 0)

/-- R108: table size 28 and table size 32 give the same frame. -/
def Obligations.TableSizeDoesNotChangeFrames : Prop :=
  ∀ (c : Config) (seed tap id : Byte) (ok : Bool) (t : Half), c.chkOffset = 4 →
    generate c id ok t (lfsrTable seed tap 28) = generate c id ok t (lfsrTable seed tap 32)

/-! ## The transmitter -/

/-- R157: TRANSMIT at the edge that accepts it. The line rises at this edge. -/
def Obligations.TransmitLatchesTheFrameAndStarts : Prop :=
  ∀ (s : State) (b0 b1 b2 b3 : Byte),
    exec (.transmit b0 b1 b2 b3) s =
      .next { s with
        txFrame := b0 ++ b1 ++ b2 ++ b3
        txK := 0
        txPhase := .on
        txTimer := s.cfg.startOn * s.cfg.ticksPerUs
        ookOut := true
        busy := true
        done := false }

/-- R162 to R165, one edge at a time: while a transmission runs, an edge of each symbol counts down, ends the on-time,
begins the next symbol or ends the transmission, with the symbol's own off-time. The model's choices: that the meaning of a
symbol is one edge of its pulse, also where `symbols(tx_frame)[tx_k]` is another symbol (log 6), and that the end keeps `tx_k`
and `tx_timer` (log 17). -/
def Obligations.PulseSymbolsAdvanceOneEdge : Prop :=
  ∀ s : State, s.txPhase ≠ .idle → 1 ≤ s.txTimer →
    exec .zero s = .next (pulseTarget s.cfg.zeroOff s) ∧
    exec .one s = .next (pulseTarget s.cfg.oneOff s) ∧
    exec .start s = .next (pulseTarget s.cfg.startOff s) ∧
    exec .stop s = .next (pulseTarget s.cfg.stopOff s)

/-- The model's choice (log 6): a symbol's meaning on an idle transmitter changes nothing, as R161 says that "While
`tx_phase = IDLE` the transmitter has no transition". -/
def Obligations.PulseSymbolsOnIdleChangeNothing : Prop :=
  ∀ s : State, s.txPhase = .idle →
    exec .zero s = .next s ∧ exec .one s = .next s ∧ exec .start s = .next s ∧ exec .stop s = .next s

/-- R158 to R161: the sequencer's transitions, as the step takes them from every state with a running transmission and a
timer of at least 1, with the off-time of `symbols(tx_frame)[tx_k]`. That the end (R161) keeps `tx_k`, `tx_timer` and `tx_frame`
is log 17's reading. -/
def Obligations.SequencerTransitions : Prop :=
  ∀ s : State, (portIn s).rst = false → s.txPhase ≠ .idle →
    (1 < s.txTimer → step s = .next { s with txTimer := s.txTimer - 1, inputs := s.inputs.tail }) ∧
    (s.txTimer = 1 → s.txPhase = .on →
      step s = .next { s with
        txPhase := .off
        ookOut := false
        txTimer := offUs s.cfg (symbolAt s.txFrame s.txK) * s.cfg.ticksPerUs
        inputs := s.inputs.tail }) ∧
    (s.txTimer = 1 → s.txPhase = .off → ∀ k : Fin 34, k.val = s.txK.val + 1 →
      step s = .next { s with
        txK := k
        txPhase := .on
        ookOut := true
        txTimer := onUs s.cfg (symbolAt s.txFrame k) * s.cfg.ticksPerUs
        inputs := s.inputs.tail }) ∧
    (s.txTimer = 1 → s.txPhase = .off → s.txK.val = 33 →
      step s = .next { s with txPhase := .idle, busy := false, done := true, inputs := s.inputs.tail })

/-- R153: the symbol sequence of a frame. -/
def Obligations.SymbolsOfAFrame : Prop :=
  ∀ f : Frame, (symbols f).length = 34 ∧ (symbols f)[0]? = some .start ∧ (symbols f)[33]? = some .stop ∧
    ∀ k, 1 ≤ k → k ≤ 32 → (symbols f)[k]? = some (if bitAt (frameBytes f) (k - 1) then .one else .zero)

/-- R162 to R165: one whole pulse. From the first tick of symbol k, with no reset, the line is high for T_on and then low for
T_off of that symbol, to the tick; then symbol k + 1 begins, or after Stop the transmission ends. -/
def Obligations.OnePulseFromStartToEnd : Prop :=
  ∀ s : State, s.cfg.Legal → s.txPhase = .on → s.ookOut = true → s.busy = true →
    s.txTimer = onTicks s.cfg (symbolAt s.txFrame s.txK) →
    ∀ u, NoResetFor u s →
      (u < onTicks s.cfg (symbolAt s.txFrame s.txK) + offTicks s.cfg (symbolAt s.txFrame s.txK) →
        ∃ t, edges u s = .next t ∧ t.ookOut = decide (u < onTicks s.cfg (symbolAt s.txFrame s.txK)) ∧
          t.busy = true ∧ t.txK = s.txK ∧ t.txFrame = s.txFrame) ∧
      (u = onTicks s.cfg (symbolAt s.txFrame s.txK) + offTicks s.cfg (symbolAt s.txFrame s.txK) →
        ∃ t, edges u s = .next t ∧
          (∀ k : Fin 34, k.val = s.txK.val + 1 →
            t = { s with txK := k, txTimer := onTicks s.cfg (symbolAt s.txFrame k), inputs := s.inputs.drop u }) ∧
          (s.txK.val = 33 → t.txPhase = .idle ∧ t.busy = false ∧ t.done = true ∧ t.ookOut = false))

/-- R169: the sequencer implements the waveform. A TRANSMIT of frame f accepted at edge 0, with no reset until its end: after
the accepting edge and u further ticks, `ook_out` is the level of R154 at microsecond u / TICKS_PER_US and `busy` is 1, for
every u below the frame's duration; at its end `busy` is 0, `done` is 1, the line is low, and `res` and the table are as they
were. Whatever commands the host presents meanwhile change nothing. And from an idle transmitter with the line low and `busy`
0 a step leads to the same unless it accepts a TRANSMIT. -/
def Obligations.SequencerFollowsTheWaveform : Prop :=
  (∀ (s : State) (b0 b1 b2 b3 : Byte) (f : Frame), s.cfg.Legal → s.txPhase = .idle → cmdReady s = true →
    (portIn s).cmdValid = true → decodeCommand (portIn s).cmd = .transmit b0 b1 b2 b3 → f = b0 ++ b1 ++ b2 ++ b3 →
    ∀ u, NoResetFor (u + 1) s →
      (u < totalUs s.cfg f * s.cfg.ticksPerUs →
        ∃ t, edges (u + 1) s = .next t ∧ t.ookOut = level s.cfg f (u / s.cfg.ticksPerUs) ∧
          t.busy = true ∧ t.done = false ∧ t.txFrame = f) ∧
      (u = totalUs s.cfg f * s.cfg.ticksPerUs →
        ∃ t, edges (u + 1) s = .next t ∧ t.ookOut = false ∧ t.busy = false ∧ t.done = true ∧
          t.txPhase = .idle ∧ t.fault = 0 ∧ t.res = s.res ∧ t.tbl = s.tbl ∧ t.tableValid = s.tableValid)) ∧
  (∀ s t : State, s.txPhase = .idle → s.ookOut = false → s.busy = false → step s = .next t →
    (∀ w b0 b1 b2 b3, fetchWord s = some (.cmd w) → decodeCommand w ≠ .transmit b0 b1 b2 b3) →
    t.txPhase = .idle ∧ t.ookOut = false ∧ t.busy = false)

/-- R154: the list of segments and the levels at `t_k` describe one waveform. -/
def Obligations.WaveAndLevelAgree : Prop :=
  ∀ (c : Config) (f : Frame) (u : Nat),
    (wave c f).length = 68 ∧ waveAt (wave c f) u = level c f u ∧ (totalUs c f ≤ u → level c f u = false)

/-- R154: the line is high for exactly 34 × 500 = 17 000 µs of every frame, with the default record. -/
def Obligations.LineIsHighSeventeenMilliseconds : Prop :=
  ∀ f : Frame, (List.range (totalUs defaultConfig f)).countP (level defaultConfig f) = 17000

/-- R155: the duration of a frame and the start of each data bit, with the default record; the shortest and the longest. -/
def Obligations.FrameDuration : Prop :=
  (∀ f : Frame, totalUs defaultConfig f = 90500 + 2000 * popcount f) ∧
  (∀ (f : Frame) (p : Nat), p < 32 →
    symbolStart defaultConfig f (p + 1) = 9500 + 2500 * p + 2000 * (List.range p).countP (frameBit f)) ∧
  totalUs defaultConfig 0x00000000 = 90500 ∧ totalUs defaultConfig 0xFFFFFFFF = 154500 ∧
  (∀ f : Frame, 90500 ≤ totalUs defaultConfig f ∧ totalUs defaultConfig f ≤ 154500)

/-- R167, R212: nothing but reset or the end of Stop's off-time ends a transmission. -/
def Obligations.OnlyResetCutsATransmission : Prop :=
  ∀ s t : State, step s = .next t → s.txPhase ≠ .idle → t.txPhase = .idle →
    (portIn s).rst = true ∨ (s.txPhase = .off ∧ s.txTimer = 1 ∧ s.txK.val = 33)

/-- R30: the frame being sent is not changed until the next TRANSMIT is accepted, or reset. -/
def Obligations.FrameStaysLatched : Prop :=
  ∀ s t : State, step s = .next t → (portIn s).rst = false → t.txFrame ≠ s.txFrame →
    s.txPhase = .idle ∧ ∃ w b0 b1 b2 b3, fetchWord s = some (.cmd w) ∧ decodeCommand w = .transmit b0 b1 b2 b3 ∧
      t.txFrame = b0 ++ b1 ++ b2 ++ b3

/-! ## Faults, flags and the host -/

/-- R86: accepting a command whose operation code is 101, 110 or 111 takes E_BADOP and changes nothing else. -/
def Obligations.ReservedCodesTakeBadOp : Prop :=
  (∀ s : State,
    exec .reserved5 s = .next { s with fault := 1, done := false } ∧
    exec .reserved6 s = .next { s with fault := 1, done := false } ∧
    exec .reserved7 s = .next { s with fault := 1, done := false }) ∧
  (∀ s : State, s.txPhase = .idle → cmdReady s = true → (portIn s).rst = false → (portIn s).cmdValid = true →
    5 ≤ ((portIn s).cmd.extractLsb' 32 3).toNat →
    step s = .next { s with fault := 1, done := false, inputs := s.inputs.tail })

/-- R181, R185: a step raises a fault only by accepting a command, and the code is the one R181 gives that command in the
order of R185; codes 5 to 7 are never produced. The premise is the invariant of R40. -/
def Obligations.FaultCodesHaveTheirCauses : Prop :=
  ∀ s t : State, StateInv s → s.fault = 0 → step s = .next t →
    (t.fault = if (portIn s).rst = false ∧ s.txPhase = .idle ∧ (portIn s).cmdValid = true
      then faultOf s (decodeCommand (portIn s).cmd) else 0) ∧
    t.fault.toNat ≤ 4

/-- R183: an instruction that raises a fault changes `fault` and `done` and nothing else of the block, and the block is no
longer ready. -/
def Obligations.FaultEntryChangesNothingElse : Prop :=
  ∀ (i : Instr) (s t : State), exec i s = .next t → t.fault ≠ s.fault →
    t = { s with fault := t.fault, done := false } ∧ cmdReady t = false

/-- R199 (a), (b), (e): a host that keeps its duties on the command port never sees a fault. It presents a command that it may
issue when `cmd_ready` is 1, or holds the command while `cmd_ready` is 0; how (b) and (e) are read is log 20. -/
def Obligations.DutiesKeepTheBlockFaultFree : Prop :=
  ∀ s t : State, StateInv s → s.fault = 0 → DutiesMet s → step s = .next t → t.fault = 0

/-- R182: CONVERT and TRANSMIT never fault, GENERATE takes no E_RANGE, and no fault is raised while a transmission runs. -/
def Obligations.ConvertTransmitAndPulsesNeverFault : Prop :=
  (∀ (s : State) (reg : Half), ∃ t, exec (.convert reg) s = .next t ∧ t.fault = s.fault) ∧
  (∀ (s : State) (b0 b1 b2 b3 : Byte), ∃ t, exec (.transmit b0 b1 b2 b3) s = .next t ∧ t.fault = s.fault) ∧
  (∀ (s t : State) (id : Byte) (ok : Bool) (temp : Half), StateInv s → s.fault = 0 →
    exec (.generate id ok temp) s = .next t → t.fault ≠ 4) ∧
  (∀ s t : State, s.txPhase ≠ .idle → (portIn s).rst = false → step s = .next t → t.fault = s.fault)

/-- R26: which operations write `res`, and how wide: HASH bits 7..0, CONVERT bits 15..0, the rest 0; BUILD, TRANSMIT, a
faulting operation and the pulses leave it. -/
def Obligations.ResultRegisterWrites : Prop :=
  ∀ (i : Instr) (s t : State), exec i s = .next t →
    match i with
    | .hash _ _ => if t.done = true then t.res.extractLsb' 8 24 = 0 else t.res = s.res
    | .convert _ => t.res.extractLsb' 16 16 = 0
    | .generate _ _ _ => t.done = false → t.res = s.res
    | _ => t.res = s.res

/-- R28: `done` after an accepted command: 1 for BUILD, HASH, CONVERT and GENERATE that raise no fault, else 0. -/
def Obligations.DoneFlagAfterAccept : Prop :=
  ∀ (i : Instr) (s t : State), StateInv s → s.fault = 0 → exec i s = .next t →
    match i with
    | .build => t.done = decide (t.fault = 0)
    | .hash _ _ => t.done = decide (t.fault = 0)
    | .convert _ => t.done = true
    | .generate _ _ _ => t.done = decide (t.fault = 0)
    | .transmit _ _ _ _ => t.done = false
    | .reserved5 => t.done = false
    | .reserved6 => t.done = false
    | .reserved7 => t.done = false
    | _ => t.txPhase ≠ .idle → t.done = s.done

/-- R150, R27: no operation but TRANSMIT makes the block busy or touches the transmitter. -/
def Obligations.OnlyTransmitStartsTheTransmitter : Prop :=
  ∀ (i : Instr) (s t : State), exec i s = .next t → s.txPhase = .idle → (∀ b0 b1 b2 b3, i ≠ .transmit b0 b1 b2 b3) →
    t.busy = s.busy ∧ t.txPhase = .idle ∧ t.txFrame = s.txFrame ∧ t.txK = s.txK ∧ t.txTimer = s.txTimer ∧
      t.ookOut = s.ookOut
end

