-- ==== Sys2Proof/Laws/Encoding.lean ====
section
/-! SUPPORT. Fields of concatenated bit vectors: what the decoder reads from a word put together field by field. -/

namespace Sys2Proof

/-- A field that lies in the low part of a concatenation. -/
theorem extract_append_low {n m : Nat} (x : BitVec n) (y : BitVec m) {s l : Nat} (h : s + l ≤ m) :
    (x ++ y).extractLsb' s l = y.extractLsb' s l := by
  apply BitVec.eq_of_getLsbD_eq
  intro i hi
  rw [BitVec.getLsbD_extractLsb', BitVec.getLsbD_extractLsb', BitVec.getLsbD_append,
    if_pos (show s + i < m by omega)]

/-- A field that lies in the high part of a concatenation. -/
theorem extract_append_high {n m : Nat} (x : BitVec n) (y : BitVec m) {s l : Nat} (h : m ≤ s) :
    (x ++ y).extractLsb' s l = x.extractLsb' (s - m) l := by
  apply BitVec.eq_of_getLsbD_eq
  intro i hi
  rw [BitVec.getLsbD_extractLsb', BitVec.getLsbD_extractLsb', BitVec.getLsbD_append,
    if_neg (show ¬ s + i < m by omega), show s + i - m = s - m + i by omega]

/-- The field that is the whole vector. -/
theorem extract_all {n : Nat} (x : BitVec n) : x.extractLsb' 0 n = x := by
  apply BitVec.eq_of_getLsbD_eq
  intro i hi
  rw [BitVec.getLsbD_extractLsb', Nat.zero_add]
  simp [hi]

/-- One bit of the low part of a concatenation. -/
theorem bit_append_low {n m : Nat} (x : BitVec n) (y : BitVec m) {i : Nat} (h : i < m) :
    (x ++ y).getLsbD i = y.getLsbD i := by
  rw [BitVec.getLsbD_append, if_pos h]

/-- One bit of the high part of a concatenation. -/
theorem bit_append_high {n m : Nat} (x : BitVec n) (y : BitVec m) {i : Nat} (h : m ≤ i) :
    (x ++ y).getLsbD i = x.getLsbD (i - m) := by
  rw [BitVec.getLsbD_append, if_neg (by omega)]

/-- The operation code of a packed command (30_encoding.md R80). -/
@[simp] theorem opField_packCommand (op : BitVec 3) (operand : BitVec 32) : opField (packCommand op operand) = op :=
  (extract_append_high op operand (by decide)).trans (extract_all op)

/-- A field of the operand of a packed command (R80). -/
theorem extract_packCommand (op : BitVec 3) (operand : BitVec 32) {s l : Nat} (h : s + l ≤ 32) :
    (packCommand op operand).extractLsb' s l = operand.extractLsb' s l :=
  extract_append_low op operand h

/-- The four bytes of a packed field (R57). -/
theorem extract_packBytes (b0 b1 b2 b3 : Byte) :
    (packBytes b0 b1 b2 b3).extractLsb' 24 8 = b0 ∧ (packBytes b0 b1 b2 b3).extractLsb' 16 8 = b1 ∧
    (packBytes b0 b1 b2 b3).extractLsb' 8 8 = b2 ∧ (packBytes b0 b1 b2 b3).extractLsb' 0 8 = b3 := by
  unfold packBytes
  refine ⟨?_, ?_, ?_, ?_⟩
  · rw [extract_append_high _ _ (by decide), extract_append_high _ _ (by decide), extract_append_high _ _ (by decide)]
    exact extract_all b0
  · rw [extract_append_high _ _ (by decide), extract_append_high _ _ (by decide), extract_append_low _ _ (by decide)]
    exact extract_all b1
  · rw [extract_append_high _ _ (by decide), extract_append_low _ _ (by decide)]
    exact extract_all b2
  · rw [extract_append_low _ _ (by decide)]
    exact extract_all b3

end Sys2Proof
end

