-- ==== Sys2Proof/Laws/State.lean ====
section
/-! SUPPORT. What each update of the state leaves in each field: one lemma per field per update, so that no proof unfolds a
record update. -/

namespace Sys2Proof.Machine

@[simp] theorem accept_cfg (s : State) : (accept s).cfg = s.cfg := rfl
@[simp] theorem accept_tbl (s : State) : (accept s).tbl = s.tbl := rfl
@[simp] theorem accept_tableValid (s : State) : (accept s).tableValid = s.tableValid := rfl
@[simp] theorem accept_lfsr (s : State) : (accept s).lfsr = s.lfsr := rfl
@[simp] theorem accept_acc (s : State) : (accept s).acc = s.acc := rfl
@[simp] theorem accept_res (s : State) : (accept s).res = s.res := rfl
@[simp] theorem accept_busy (s : State) : (accept s).busy = s.busy := rfl
@[simp] theorem accept_done (s : State) : (accept s).done = false := rfl
@[simp] theorem accept_fault (s : State) : (accept s).fault = s.fault := rfl
@[simp] theorem accept_txFrame (s : State) : (accept s).txFrame = s.txFrame := rfl
@[simp] theorem accept_txPhase (s : State) : (accept s).txPhase = s.txPhase := rfl
@[simp] theorem accept_txK (s : State) : (accept s).txK = s.txK := rfl
@[simp] theorem accept_txTimer (s : State) : (accept s).txTimer = s.txTimer := rfl
@[simp] theorem accept_ookOut (s : State) : (accept s).ookOut = s.ookOut := rfl
@[simp] theorem accept_inputs (s : State) : (accept s).inputs = s.inputs := rfl

@[simp] theorem complete_cfg (s : State) : (complete s).cfg = s.cfg := rfl
@[simp] theorem complete_tbl (s : State) : (complete s).tbl = s.tbl := rfl
@[simp] theorem complete_tableValid (s : State) : (complete s).tableValid = s.tableValid := rfl
@[simp] theorem complete_lfsr (s : State) : (complete s).lfsr = s.lfsr := rfl
@[simp] theorem complete_acc (s : State) : (complete s).acc = s.acc := rfl
@[simp] theorem complete_res (s : State) : (complete s).res = s.res := rfl
@[simp] theorem complete_busy (s : State) : (complete s).busy = s.busy := rfl
@[simp] theorem complete_done (s : State) : (complete s).done = true := rfl
@[simp] theorem complete_fault (s : State) : (complete s).fault = s.fault := rfl
@[simp] theorem complete_txFrame (s : State) : (complete s).txFrame = s.txFrame := rfl
@[simp] theorem complete_txPhase (s : State) : (complete s).txPhase = s.txPhase := rfl
@[simp] theorem complete_txK (s : State) : (complete s).txK = s.txK := rfl
@[simp] theorem complete_txTimer (s : State) : (complete s).txTimer = s.txTimer := rfl
@[simp] theorem complete_ookOut (s : State) : (complete s).ookOut = s.ookOut := rfl
@[simp] theorem complete_inputs (s : State) : (complete s).inputs = s.inputs := rfl

@[simp] theorem raiseFault_cfg (e : ErrCode) (s : State) : (raiseFault e s).cfg = s.cfg := rfl
@[simp] theorem raiseFault_tbl (e : ErrCode) (s : State) : (raiseFault e s).tbl = s.tbl := rfl
@[simp] theorem raiseFault_tableValid (e : ErrCode) (s : State) : (raiseFault e s).tableValid = s.tableValid := rfl
@[simp] theorem raiseFault_lfsr (e : ErrCode) (s : State) : (raiseFault e s).lfsr = s.lfsr := rfl
@[simp] theorem raiseFault_acc (e : ErrCode) (s : State) : (raiseFault e s).acc = s.acc := rfl
@[simp] theorem raiseFault_res (e : ErrCode) (s : State) : (raiseFault e s).res = s.res := rfl
@[simp] theorem raiseFault_busy (e : ErrCode) (s : State) : (raiseFault e s).busy = s.busy := rfl
@[simp] theorem raiseFault_done (e : ErrCode) (s : State) : (raiseFault e s).done = false := rfl
@[simp] theorem raiseFault_fault (e : ErrCode) (s : State) : (raiseFault e s).fault = e.code := rfl
@[simp] theorem raiseFault_txFrame (e : ErrCode) (s : State) : (raiseFault e s).txFrame = s.txFrame := rfl
@[simp] theorem raiseFault_txPhase (e : ErrCode) (s : State) : (raiseFault e s).txPhase = s.txPhase := rfl
@[simp] theorem raiseFault_txK (e : ErrCode) (s : State) : (raiseFault e s).txK = s.txK := rfl
@[simp] theorem raiseFault_txTimer (e : ErrCode) (s : State) : (raiseFault e s).txTimer = s.txTimer := rfl
@[simp] theorem raiseFault_ookOut (e : ErrCode) (s : State) : (raiseFault e s).ookOut = s.ookOut := rfl
@[simp] theorem raiseFault_inputs (e : ErrCode) (s : State) : (raiseFault e s).inputs = s.inputs := rfl

@[simp] theorem afterEdge_cfg (s : State) : (afterEdge s).cfg = s.cfg := rfl
@[simp] theorem afterEdge_tbl (s : State) : (afterEdge s).tbl = s.tbl := rfl
@[simp] theorem afterEdge_tableValid (s : State) : (afterEdge s).tableValid = s.tableValid := rfl
@[simp] theorem afterEdge_lfsr (s : State) : (afterEdge s).lfsr = s.lfsr := rfl
@[simp] theorem afterEdge_acc (s : State) : (afterEdge s).acc = s.acc := rfl
@[simp] theorem afterEdge_res (s : State) : (afterEdge s).res = s.res := rfl
@[simp] theorem afterEdge_busy (s : State) : (afterEdge s).busy = s.busy := rfl
@[simp] theorem afterEdge_done (s : State) : (afterEdge s).done = s.done := rfl
@[simp] theorem afterEdge_fault (s : State) : (afterEdge s).fault = s.fault := rfl
@[simp] theorem afterEdge_txFrame (s : State) : (afterEdge s).txFrame = s.txFrame := rfl
@[simp] theorem afterEdge_txPhase (s : State) : (afterEdge s).txPhase = s.txPhase := rfl
@[simp] theorem afterEdge_txK (s : State) : (afterEdge s).txK = s.txK := rfl
@[simp] theorem afterEdge_txTimer (s : State) : (afterEdge s).txTimer = s.txTimer := rfl
@[simp] theorem afterEdge_ookOut (s : State) : (afterEdge s).ookOut = s.ookOut := rfl
@[simp] theorem afterEdge_inputs (s : State) : (afterEdge s).inputs = s.inputs.tail := rfl

@[simp] theorem resetBlock_cfg (s : State) : (resetBlock s).cfg = s.cfg := rfl
@[simp] theorem resetBlock_tbl (s : State) : (resetBlock s).tbl = [] := rfl
@[simp] theorem resetBlock_tableValid (s : State) : (resetBlock s).tableValid = false := rfl
@[simp] theorem resetBlock_lfsr (s : State) : (resetBlock s).lfsr = 0 := rfl
@[simp] theorem resetBlock_acc (s : State) : (resetBlock s).acc = 0 := rfl
@[simp] theorem resetBlock_res (s : State) : (resetBlock s).res = 0 := rfl
@[simp] theorem resetBlock_busy (s : State) : (resetBlock s).busy = false := rfl
@[simp] theorem resetBlock_done (s : State) : (resetBlock s).done = false := rfl
@[simp] theorem resetBlock_fault (s : State) : (resetBlock s).fault = 0 := rfl
@[simp] theorem resetBlock_txFrame (s : State) : (resetBlock s).txFrame = 0 := rfl
@[simp] theorem resetBlock_txPhase (s : State) : (resetBlock s).txPhase = .idle := rfl
@[simp] theorem resetBlock_txK (s : State) : (resetBlock s).txK = 0 := rfl
@[simp] theorem resetBlock_txTimer (s : State) : (resetBlock s).txTimer = 0 := rfl
@[simp] theorem resetBlock_ookOut (s : State) : (resetBlock s).ookOut = false := rfl
@[simp] theorem resetBlock_inputs (s : State) : (resetBlock s).inputs = s.inputs := rfl

@[simp] theorem countDown_cfg (s : State) : (countDown s).cfg = s.cfg := rfl
@[simp] theorem countDown_tbl (s : State) : (countDown s).tbl = s.tbl := rfl
@[simp] theorem countDown_tableValid (s : State) : (countDown s).tableValid = s.tableValid := rfl
@[simp] theorem countDown_lfsr (s : State) : (countDown s).lfsr = s.lfsr := rfl
@[simp] theorem countDown_acc (s : State) : (countDown s).acc = s.acc := rfl
@[simp] theorem countDown_res (s : State) : (countDown s).res = s.res := rfl
@[simp] theorem countDown_busy (s : State) : (countDown s).busy = s.busy := rfl
@[simp] theorem countDown_done (s : State) : (countDown s).done = s.done := rfl
@[simp] theorem countDown_fault (s : State) : (countDown s).fault = s.fault := rfl
@[simp] theorem countDown_txFrame (s : State) : (countDown s).txFrame = s.txFrame := rfl
@[simp] theorem countDown_txPhase (s : State) : (countDown s).txPhase = s.txPhase := rfl
@[simp] theorem countDown_txK (s : State) : (countDown s).txK = s.txK := rfl
@[simp] theorem countDown_txTimer (s : State) : (countDown s).txTimer = s.txTimer - 1 := rfl
@[simp] theorem countDown_ookOut (s : State) : (countDown s).ookOut = s.ookOut := rfl
@[simp] theorem countDown_inputs (s : State) : (countDown s).inputs = s.inputs := rfl

@[simp] theorem beginOff_cfg (sym : Symbol) (s : State) : (beginOff sym s).cfg = s.cfg := rfl
@[simp] theorem beginOff_tbl (sym : Symbol) (s : State) : (beginOff sym s).tbl = s.tbl := rfl
@[simp] theorem beginOff_tableValid (sym : Symbol) (s : State) : (beginOff sym s).tableValid = s.tableValid := rfl
@[simp] theorem beginOff_lfsr (sym : Symbol) (s : State) : (beginOff sym s).lfsr = s.lfsr := rfl
@[simp] theorem beginOff_acc (sym : Symbol) (s : State) : (beginOff sym s).acc = s.acc := rfl
@[simp] theorem beginOff_res (sym : Symbol) (s : State) : (beginOff sym s).res = s.res := rfl
@[simp] theorem beginOff_busy (sym : Symbol) (s : State) : (beginOff sym s).busy = s.busy := rfl
@[simp] theorem beginOff_done (sym : Symbol) (s : State) : (beginOff sym s).done = s.done := rfl
@[simp] theorem beginOff_fault (sym : Symbol) (s : State) : (beginOff sym s).fault = s.fault := rfl
@[simp] theorem beginOff_txFrame (sym : Symbol) (s : State) : (beginOff sym s).txFrame = s.txFrame := rfl
@[simp] theorem beginOff_txPhase (sym : Symbol) (s : State) : (beginOff sym s).txPhase = .off := rfl
@[simp] theorem beginOff_txK (sym : Symbol) (s : State) : (beginOff sym s).txK = s.txK := rfl
@[simp] theorem beginOff_txTimer (sym : Symbol) (s : State) : (beginOff sym s).txTimer = offTicks s.cfg sym := rfl
@[simp] theorem beginOff_ookOut (sym : Symbol) (s : State) : (beginOff sym s).ookOut = false := rfl
@[simp] theorem beginOff_inputs (sym : Symbol) (s : State) : (beginOff sym s).inputs = s.inputs := rfl

@[simp] theorem beginSymbol_cfg (k : Fin 34) (s : State) : (beginSymbol k s).cfg = s.cfg := rfl
@[simp] theorem beginSymbol_tbl (k : Fin 34) (s : State) : (beginSymbol k s).tbl = s.tbl := rfl
@[simp] theorem beginSymbol_tableValid (k : Fin 34) (s : State) : (beginSymbol k s).tableValid = s.tableValid := rfl
@[simp] theorem beginSymbol_lfsr (k : Fin 34) (s : State) : (beginSymbol k s).lfsr = s.lfsr := rfl
@[simp] theorem beginSymbol_acc (k : Fin 34) (s : State) : (beginSymbol k s).acc = s.acc := rfl
@[simp] theorem beginSymbol_res (k : Fin 34) (s : State) : (beginSymbol k s).res = s.res := rfl
@[simp] theorem beginSymbol_busy (k : Fin 34) (s : State) : (beginSymbol k s).busy = s.busy := rfl
@[simp] theorem beginSymbol_done (k : Fin 34) (s : State) : (beginSymbol k s).done = s.done := rfl
@[simp] theorem beginSymbol_fault (k : Fin 34) (s : State) : (beginSymbol k s).fault = s.fault := rfl
@[simp] theorem beginSymbol_txFrame (k : Fin 34) (s : State) : (beginSymbol k s).txFrame = s.txFrame := rfl
@[simp] theorem beginSymbol_txPhase (k : Fin 34) (s : State) : (beginSymbol k s).txPhase = .on := rfl
@[simp] theorem beginSymbol_txK (k : Fin 34) (s : State) : (beginSymbol k s).txK = k := rfl
@[simp] theorem beginSymbol_txTimer (k : Fin 34) (s : State) : (beginSymbol k s).txTimer = onTicks s.cfg (symbolAt s.txFrame k) := rfl
@[simp] theorem beginSymbol_ookOut (k : Fin 34) (s : State) : (beginSymbol k s).ookOut = true := rfl
@[simp] theorem beginSymbol_inputs (k : Fin 34) (s : State) : (beginSymbol k s).inputs = s.inputs := rfl

@[simp] theorem endTransmission_cfg (s : State) : (endTransmission s).cfg = s.cfg := rfl
@[simp] theorem endTransmission_tbl (s : State) : (endTransmission s).tbl = s.tbl := rfl
@[simp] theorem endTransmission_tableValid (s : State) : (endTransmission s).tableValid = s.tableValid := rfl
@[simp] theorem endTransmission_lfsr (s : State) : (endTransmission s).lfsr = s.lfsr := rfl
@[simp] theorem endTransmission_acc (s : State) : (endTransmission s).acc = s.acc := rfl
@[simp] theorem endTransmission_res (s : State) : (endTransmission s).res = s.res := rfl
@[simp] theorem endTransmission_busy (s : State) : (endTransmission s).busy = false := rfl
@[simp] theorem endTransmission_done (s : State) : (endTransmission s).done = true := rfl
@[simp] theorem endTransmission_fault (s : State) : (endTransmission s).fault = s.fault := rfl
@[simp] theorem endTransmission_txFrame (s : State) : (endTransmission s).txFrame = s.txFrame := rfl
@[simp] theorem endTransmission_txPhase (s : State) : (endTransmission s).txPhase = .idle := rfl
@[simp] theorem endTransmission_txK (s : State) : (endTransmission s).txK = s.txK := rfl
@[simp] theorem endTransmission_txTimer (s : State) : (endTransmission s).txTimer = s.txTimer := rfl
@[simp] theorem endTransmission_ookOut (s : State) : (endTransmission s).ookOut = s.ookOut := rfl
@[simp] theorem endTransmission_inputs (s : State) : (endTransmission s).inputs = s.inputs := rfl

end Sys2Proof.Machine
end

