-- ==== Sys2Proof/Laws/Memory.lean ====
section
/-! SUPPORT. The table's storage: a read after a write, and the canonical form that every write keeps. -/

namespace Sys2Proof.Machine

@[simp] theorem Memory.read_nil (i : Nat) : Memory.read [] i = none := rfl

theorem Memory.read_cons (a : Nat) (b : Byte) (m : Memory) (i : Nat) :
    Memory.read ((a, b) :: m) i = if a = i then some b else m.read i := rfl

/-- A read after a write to the same index gives the byte written. -/
@[simp] theorem Memory.read_write_same (m : Memory) (i : Nat) (v : Byte) : (m.write i v).read i = some v := by
  induction m with
  | nil => simp [Memory.write, Memory.read]
  | cons c m ih =>
    obtain ⟨a, b⟩ := c
    simp only [Memory.write]
    split
    · simp [Memory.read]
    · split
      · simp [Memory.read]
      · rename_i h
        rw [Memory.read_cons, if_neg (fun e => h e.symm), ih]

/-- A write leaves every other index alone. -/
theorem Memory.read_write_other (m : Memory) {i j : Nat} (v : Byte) (h : i ≠ j) :
    (m.write i v).read j = m.read j := by
  induction m with
  | nil => simp [Memory.write, Memory.read, h]
  | cons c m ih =>
    obtain ⟨a, b⟩ := c
    simp only [Memory.write]
    split
    · rw [Memory.read_cons, if_neg h]
    · split
      · rename_i e
        subst e
        simp [Memory.read_cons, h]
      · simp [Memory.read_cons, ih]

/-- A write lists nothing new but its own index. -/
theorem Memory.mem_write {m : Memory} {i : Nat} {v : Byte} {e : Host.Cell} (h : e ∈ m.write i v) :
    e = (i, v) ∨ e ∈ m := by
  induction m with
  | nil => simpa [Memory.write] using h
  | cons c m ih =>
    obtain ⟨a, b⟩ := c
    simp only [Memory.write] at h
    split at h
    · simpa using h
    · split at h
      · rcases List.mem_cons.1 h with h | h
        · exact .inl h
        · exact .inr (List.mem_cons_of_mem _ h)
      · rcases List.mem_cons.1 h with h | h
        · exact .inr (h ▸ List.mem_cons_self ..)
        · exact (ih h).imp id (List.mem_cons_of_mem _)

/-- A write keeps the indices strictly rising. -/
theorem Memory.wf_write {m : Memory} (i : Nat) (v : Byte) (h : m.wf) : (m.write i v).wf := by
  induction m with
  | nil => simp [Memory.write, Memory.wf]
  | cons c m ih =>
    obtain ⟨a, b⟩ := c
    have hm := List.pairwise_cons.1 h
    simp only [Memory.write]
    split
    · rename_i lt
      refine List.pairwise_cons.2 ⟨fun e he => ?_, h⟩
      rcases List.mem_cons.1 he with he | he
      · exact he ▸ lt
      · exact Nat.lt_trans lt (hm.1 e he)
    · split
      · rename_i e
        subst e
        exact List.pairwise_cons.2 ⟨hm.1, hm.2⟩
      · rename_i nlt ne
        refine List.pairwise_cons.2 ⟨fun e he => ?_, ih hm.2⟩
        rcases Memory.mem_write he with he | he
        · subst he
          show a < i
          omega
        · exact hm.1 e he

/-- Writing a range keeps the indices strictly rising. -/
theorem Memory.wf_writeRange {m : Memory} (i : Nat) (vs : List Byte) (h : m.wf) : (m.writeRange i vs).wf := by
  induction vs generalizing m i with
  | nil => exact h
  | cons v vs ih => exact ih (i + 1) (Memory.wf_write i v h)

/-- Writing a range lists nothing new but the range. -/
theorem Memory.mem_writeRange {m : Memory} {i : Nat} {vs : List Byte} {e : Host.Cell}
    (h : e ∈ m.writeRange i vs) : (i ≤ e.1 ∧ e.1 < i + vs.length) ∨ e ∈ m := by
  induction vs generalizing m i with
  | nil => exact .inr h
  | cons v vs ih =>
    rcases ih h with h | h
    · left
      simp only [List.length_cons]
      omega
    · rcases Memory.mem_write h with h | h
      · left
        subst h
        simp only [List.length_cons]
        omega
      · exact .inr h

/-- Below and above the range written nothing changes. -/
theorem Memory.read_writeRange_other {m : Memory} {i j : Nat} {vs : List Byte} (h : j < i ∨ i + vs.length ≤ j) :
    (m.writeRange i vs).read j = m.read j := by
  induction vs generalizing m i with
  | nil => rfl
  | cons v vs ih =>
    simp only [List.length_cons] at h
    show ((m.write i v).writeRange (i + 1) vs).read j = _
    rw [ih (by omega), Memory.read_write_other _ _ (by omega)]

/-- A read inside the range written gives the range's byte. -/
theorem Memory.read_writeRange {m : Memory} {i j : Nat} {vs : List Byte} (h : j < vs.length) :
    (m.writeRange i vs).read (i + j) = vs[j]? := by
  induction vs generalizing m i j with
  | nil => simp at h
  | cons v vs ih =>
    show ((m.write i v).writeRange (i + 1) vs).read (i + j) = _
    cases j with
    | zero => rw [Memory.read_writeRange_other (by omega)]; simp
    | succ j =>
      rw [show i + (j + 1) = i + 1 + j by omega, ih (by simpa using h)]
      simp

/-- Writing any range from `i`, one read at a time. -/
theorem Memory.read_writeRange_eq (m : Memory) (i j : Nat) (vs : List Byte) :
    (m.writeRange i vs).read j = if i ≤ j ∧ j < i + vs.length then vs[j - i]? else m.read j := by
  split
  · rename_i h
    conv => lhs; rw [show j = i + (j - i) by omega]
    exact Memory.read_writeRange (by omega)
  · exact Memory.read_writeRange_other (by omega)

end Sys2Proof.Machine
end

