-- ==== Sys2Proof/Laws/Exec.lean ====
section
/-! SUPPORT. What each shared operation and each meaning can do, said once: "if it answers next t, then one of these cases
holds". Later proofs cite these and unfold nothing. -/

namespace Sys2Proof.Machine

/-! ## The applicator -/

theorem readTbl_inRange {s : State} {i : Nat} {b : Byte} (h : i < s.cfg.tableSize) (hb : s.tbl.read i = some b) :
    readTbl s i = .ok b := by
  simp [readTbl, h, hb]

theorem readTbl_outOfRange {s : State} {i : Nat} (h : s.cfg.tableSize ≤ i) : readTbl s i = .error .outOfRange := by
  simp [readTbl, Nat.not_lt.2 h]

theorem hashFold_nil (rd : Nat → Except TblError Byte) (data : List Byte) (off : Nat) (acc : Byte) :
    hashFold rd data off [] acc = .ok acc := rfl

/-- A clear bit reads nothing (20_memory.md R54). -/
theorem hashFold_clear (rd : Nat → Except TblError Byte) {data : List Byte} (off : Nat) {p : Nat} (ps : List Nat)
    (acc : Byte) (h : bitAt data p = false) :
    hashFold rd data off (p :: ps) acc = hashFold rd data off ps acc := by
  simp [hashFold, h]

/-- A set bit folds in the byte at `p + off` (40_checksum.md R105). -/
theorem hashFold_set {rd : Nat → Except TblError Byte} {data : List Byte} {off p : Nat} (ps : List Nat) (acc : Byte)
    {b : Byte} (h : bitAt data p = true) (hb : rd (p + off) = .ok b) :
    hashFold rd data off (p :: ps) acc = hashFold rd data off ps (acc ^^^ b) := by
  simp [hashFold, h, hb]

/-- A read that gives no byte ends the loop (20_memory.md R54). -/
theorem hashFold_stop {rd : Nat → Except TblError Byte} {data : List Byte} {off p : Nat} (ps : List Nat) (acc : Byte)
    {e : TblError} (h : bitAt data p = true) (he : rd (p + off) = .error e) :
    hashFold rd data off (p :: ps) acc = .error e := by
  simp [hashFold, h, he]

/-- Two readers that agree on the indices the set bits select give the same fold. -/
theorem hashFold_congr {rd rd' : Nat → Except TblError Byte} {data : List Byte} {off : Nat} {ps : List Nat}
    (h : ∀ p ∈ ps, bitAt data p = true → rd (p + off) = rd' (p + off)) (acc : Byte) :
    hashFold rd data off ps acc = hashFold rd' data off ps acc := by
  induction ps generalizing acc with
  | nil => rfl
  | cons p ps ih =>
    have ih := ih fun q hq => h q (List.mem_cons_of_mem _ hq)
    cases hb : bitAt data p with
    | false => rw [hashFold_clear _ _ _ _ hb, hashFold_clear _ _ _ _ hb, ih]
    | true =>
      have e := h p (List.mem_cons_self ..) hb
      cases hr : rd (p + off) with
      | ok b => rw [hashFold_set _ _ hb hr, hashFold_set _ _ hb (e ▸ hr), ih]
      | error x => rw [hashFold_stop _ _ hb hr, hashFold_stop _ _ hb (e ▸ hr)]

/-- Where the fold of a suffix starts does not matter but for the bytes folded before it. -/
theorem hashFold_append (rd : Nat → Except TblError Byte) (data : List Byte) (off : Nat) (ps qs : List Nat)
    (acc : Byte) :
    hashFold rd data off (ps ++ qs) acc =
      match hashFold rd data off ps acc with
      | .ok b => hashFold rd data off qs b
      | .error e => .error e := by
  induction ps generalizing acc with
  | nil => rfl
  | cons p ps ih =>
    cases hb : bitAt data p with
    | false => rw [List.cons_append, hashFold_clear _ _ _ _ hb, hashFold_clear _ _ _ _ hb, ih]
    | true =>
      cases hr : rd (p + off) with
      | ok b => rw [List.cons_append, hashFold_set _ _ hb hr, hashFold_set _ _ hb hr, ih]
      | error x => rw [List.cons_append, hashFold_stop _ _ hb hr, hashFold_stop _ _ hb hr]

theorem lfsrTable_succ (r tap : Byte) (n : Nat) :
    lfsrTable r tap (n + 1) = lfsrStep r tap :: lfsrTable (lfsrStep r tap) tap n := rfl

@[simp] theorem lfsrTable_length (r tap : Byte) (n : Nat) : (lfsrTable r tap n).length = n := by
  induction n generalizing r with
  | zero => rfl
  | succ n ih => simp [lfsrTable_succ, ih]

/-- Everything `withChecksum` can answer as a next state. -/
theorem withChecksum_next {s t : State} {data : List Byte} {off : Nat} {k : Byte → State}
    (h : withChecksum s data off k = .next t) :
    (∃ b, hashTbl s data off = .ok b ∧ t = complete (k b)) ∨
    (hashTbl s data off = .error .outOfRange ∧ t = raiseFault .range s) := by
  unfold withChecksum at h
  split at h
  · rename_i b hb
    exact .inl ⟨b, hb, by cases h; rfl⟩
  · rename_i hb
    exact .inr ⟨hb, by cases h; rfl⟩
  · cases h

/-! ## The meanings -/

theorem execBuild_next {s t : State} (h : execBuild s = .next t) :
    (s.tableValid = true ∧ t = raiseFault .rebuild s) ∨
    (s.tableValid = false ∧
      t = complete { accept s with
        tbl := s.tbl.writeRange 0 (lfsrTable s.cfg.lfsrSeed s.cfg.lfsrTap s.cfg.tableSize)
        lfsr := (lfsrTable s.cfg.lfsrSeed s.cfg.lfsrTap s.cfg.tableSize).getLastD s.cfg.lfsrSeed
        tableValid := true }) := by
  unfold execBuild at h
  split at h
  · rename_i hv
    exact .inl ⟨hv, by cases h; rfl⟩
  · rename_i hv
    exact .inr ⟨Bool.eq_false_iff.2 hv, by cases h; rfl⟩

theorem execHash_next {data : List Byte} {off : Nat} {s t : State} (h : execHash data off s = .next t) :
    (s.tableValid = false ∧ t = raiseFault .noTable s) ∨
    (s.tableValid = true ∧ ∃ b, hashTbl (accept s) data off = .ok b ∧
      t = complete { accept s with acc := b, res := b.setWidth 32 }) ∨
    (s.tableValid = true ∧ hashTbl (accept s) data off = .error .outOfRange ∧ t = raiseFault .range (accept s)) := by
  unfold execHash at h
  split at h
  · rename_i hv
    exact .inr ((withChecksum_next h).imp (fun h => ⟨hv, h⟩) fun h => ⟨hv, h⟩)
  · rename_i hv
    exact .inl ⟨Bool.eq_false_iff.2 hv, by cases h; rfl⟩

theorem execGenerate_next {id : Byte} {batteryOk : Bool} {temperature : Half} {s t : State}
    (h : execGenerate id batteryOk temperature s = .next t) :
    (s.tableValid = false ∧ t = raiseFault .noTable s) ∨
    (s.tableValid = true ∧
      ∃ b, hashTbl (accept s) (frameBody id batteryOk temperature) s.cfg.chkOffset = .ok b ∧
        t = complete { accept s with acc := b, res := packFrame (frameBody id batteryOk temperature) b }) ∨
    (s.tableValid = true ∧
      hashTbl (accept s) (frameBody id batteryOk temperature) s.cfg.chkOffset = .error .outOfRange ∧
      t = raiseFault .range (accept s)) := by
  unfold execGenerate at h
  split at h
  · rename_i hv
    exact .inr ((withChecksum_next h).imp (fun h => ⟨hv, h⟩) fun h => ⟨hv, h⟩)
  · rename_i hv
    exact .inl ⟨Bool.eq_false_iff.2 hv, by cases h; rfl⟩

/-- Everything one edge of a pulse can do (43_ook_tx.md R158 to R161). -/
theorem pulseEdge_next {sym : Symbol} {s t : State} (h : pulseEdge sym s = .next t) :
    (s.txPhase = .idle ∧ t = s) ∨
    (s.txPhase ≠ .idle ∧ 1 < s.txTimer ∧ t = countDown s) ∨
    (s.txPhase = .on ∧ s.txTimer = 1 ∧ t = beginOff sym s) ∨
    (s.txPhase = .off ∧ s.txTimer = 1 ∧ ∃ k : Fin 34, k.val = s.txK.val + 1 ∧ t = beginSymbol k s) ∨
    (s.txPhase = .off ∧ s.txTimer = 1 ∧ s.txK.val = 33 ∧ t = endTransmission s) := by
  unfold pulseEdge at h
  split at h
  · exact .inl ⟨‹_›, by cases h; rfl⟩
  · rename_i hp
    split at h
    · cases h
    · split at h
      · exact .inr (.inr (.inl ⟨hp, ‹_›, by cases h; rfl⟩))
      · exact .inr (.inl ⟨by simp [hp], by omega, by cases h; rfl⟩)
  · rename_i hp
    split at h
    · cases h
    · split at h
      · cases h
        unfold nextSymbol
        split
        · exact .inr (.inr (.inr (.inl ⟨hp, ‹_›, _, rfl, rfl⟩)))
        · exact .inr (.inr (.inr (.inr ⟨hp, ‹_›, by have := s.txK.isLt; omega, rfl⟩)))
      · exact .inr (.inl ⟨by simp [hp], by omega, by cases h; rfl⟩)

/-- The instruction of a symbol. -/
def symbolInstr : Symbol → Instr
  | .start => .start
  | .zero => .zero
  | .one => .one
  | .stop => .stop

@[simp] theorem decode_symbolCode (y : Symbol) : decode (.sym (symbolCode y)) = symbolInstr y := by
  cases y <;> decide

@[simp] theorem exec_symbolInstr (y : Symbol) (s : State) : exec (symbolInstr y) s = pulseEdge y s := by
  cases y <;> rfl

/-! ## One step -/

theorem fetchWord_some {s : State} {w : CodeWord} (h : fetchWord s = some w) :
    (portIn s).rst = false ∧
    ((s.txPhase ≠ .idle ∧ w = .sym (symbolCode (symbolAt s.txFrame s.txK))) ∨
     (s.txPhase = .idle ∧ (portIn s).cmdValid = true ∧ cmdReady s = true ∧ w = .cmd (portIn s).cmd)) := by
  unfold fetchWord at h
  split at h
  · cases h
  · rename_i hr
    refine ⟨Bool.eq_false_iff.2 hr, ?_⟩
    split at h
    · exact .inl ⟨‹_›, by cases h; rfl⟩
    · rename_i hp
      split at h
      · rename_i hv
        have hv := (Bool.and_eq_true _ _).mp hv
        exact .inr ⟨Classical.not_not.1 hp, hv.1, hv.2, by cases h; rfl⟩
      · cases h

theorem fetchWord_symbol {s : State} (hr : (portIn s).rst = false) (hp : s.txPhase ≠ .idle) :
    fetchWord s = some (.sym (symbolCode (symbolAt s.txFrame s.txK))) := by
  simp [fetchWord, hr, hp]

theorem fetchWord_command {s : State} (hr : (portIn s).rst = false) (hp : s.txPhase = .idle)
    (hv : (portIn s).cmdValid = true) (hc : cmdReady s = true) : fetchWord s = some (.cmd (portIn s).cmd) := by
  simp [fetchWord, hr, hp, hv, hc]

/-- Everything one step can do. -/
theorem step_next {s t : State} (h : step s = .next t) :
    ((portIn s).rst = true ∧ t = resetBlock (afterEdge s)) ∨
    ((portIn s).rst = false ∧ fetchWord s = none ∧ t = afterEdge s) ∨
    ((portIn s).rst = false ∧ s.txPhase ≠ .idle ∧ pulseEdge (symbolAt s.txFrame s.txK) (afterEdge s) = .next t) ∨
    ((portIn s).rst = false ∧ s.txPhase = .idle ∧ (portIn s).cmdValid = true ∧ cmdReady s = true ∧
      exec (decodeCommand (portIn s).cmd) (afterEdge s) = .next t) := by
  unfold step at h
  split at h
  · exact .inl ⟨‹_›, by cases h; rfl⟩
  · rename_i hr
    have hr := Bool.eq_false_iff.2 hr
    split at h
    · rename_i w hw
      rcases (fetchWord_some hw).2 with ⟨hp, rfl⟩ | ⟨hp, hv, hc, rfl⟩
      · exact .inr (.inr (.inl ⟨hr, hp, by simpa using h⟩))
      · exact .inr (.inr (.inr ⟨hr, hp, hv, hc, h⟩))
    · exact .inr (.inl ⟨hr, ‹_›, by cases h; rfl⟩)

/-- No meaning writes the configuration record or touches what the host will drive. -/
theorem exec_keeps_cfg_inputs {i : Instr} {s t : State} (h : exec i s = .next t) :
    t.cfg = s.cfg ∧ t.inputs = s.inputs := by
  have pulse : ∀ y, pulseEdge y s = .next t → t.cfg = s.cfg ∧ t.inputs = s.inputs := by
    intro y h
    rcases pulseEdge_next h with ⟨-, rfl⟩ | ⟨-, -, rfl⟩ | ⟨-, -, rfl⟩ | ⟨-, -, k, -, rfl⟩ | ⟨-, -, -, rfl⟩ <;>
      exact ⟨rfl, rfl⟩
  cases i with
  | build => rcases execBuild_next h with ⟨-, rfl⟩ | ⟨-, rfl⟩ <;> exact ⟨rfl, rfl⟩
  | hash data off =>
    rcases execHash_next h with ⟨-, rfl⟩ | ⟨-, b, -, rfl⟩ | ⟨-, -, rfl⟩ <;> exact ⟨rfl, rfl⟩
  | convert reg => cases h; exact ⟨rfl, rfl⟩
  | generate id ok temp =>
    rcases execGenerate_next h with ⟨-, rfl⟩ | ⟨-, b, -, rfl⟩ | ⟨-, -, rfl⟩ <;> exact ⟨rfl, rfl⟩
  | transmit b0 b1 b2 b3 => cases h; exact ⟨rfl, rfl⟩
  | reserved5 => cases h; exact ⟨rfl, rfl⟩
  | reserved6 => cases h; exact ⟨rfl, rfl⟩
  | reserved7 => cases h; exact ⟨rfl, rfl⟩
  | zero => exact pulse .zero h
  | one => exact pulse .one h
  | start => exact pulse .start h
  | stop => exact pulse .stop h

/-- Every meaning keeps the table's storage in canonical form. -/
theorem exec_keeps_wf {i : Instr} {s t : State} (h : exec i s = .next t) (hw : s.tbl.wf) : t.tbl.wf := by
  have pulse : ∀ y, pulseEdge y s = .next t → t.tbl.wf := by
    intro y h
    rcases pulseEdge_next h with ⟨-, rfl⟩ | ⟨-, -, rfl⟩ | ⟨-, -, rfl⟩ | ⟨-, -, k, -, rfl⟩ | ⟨-, -, -, rfl⟩ <;> exact hw
  cases i with
  | build =>
    rcases execBuild_next h with ⟨-, rfl⟩ | ⟨-, rfl⟩
    · exact hw
    · exact Memory.wf_writeRange _ _ hw
  | hash data off =>
    rcases execHash_next h with ⟨-, rfl⟩ | ⟨-, b, -, rfl⟩ | ⟨-, -, rfl⟩ <;> exact hw
  | convert reg => cases h; exact hw
  | generate id ok temp =>
    rcases execGenerate_next h with ⟨-, rfl⟩ | ⟨-, b, -, rfl⟩ | ⟨-, -, rfl⟩ <;> exact hw
  | transmit b0 b1 b2 b3 => cases h; exact hw
  | reserved5 => cases h; exact hw
  | reserved6 => cases h; exact hw
  | reserved7 => cases h; exact hw
  | zero => exact pulse .zero h
  | one => exact pulse .one h
  | start => exact pulse .start h
  | stop => exact pulse .stop h

/-- The table's storage is in canonical form at reset. -/
theorem reset_tbl_wf : State.reset.tbl.wf := List.Pairwise.nil

end Sys2Proof.Machine
end

