-- ==== Sys2Proof/Laws/PerInstr.lean ====
section
/-! SUPPORT. One family of statements over all instructions: the code word of every instruction matches its row of
spec/opcode_table.json (mask and match), and no two rows match one word. -/

namespace Sys2Proof.Laws

/-- A row's `format`, `mask` and `match` (30_encoding.md R90, R76). -/
inductive Row where
  | cmd (mask value : Command)
  | sym (mask value : BitVec 2)
deriving DecidableEq, Repr

/-- The row of each instruction, written out from the table. -/
def rowOf : Instr → Row
  | .build => .cmd 0x700000000 0x000000000
  | .hash _ _ => .cmd 0x700000000 0x100000000
  | .convert _ => .cmd 0x700000000 0x200000000
  | .generate _ _ _ => .cmd 0x700000000 0x300000000
  | .transmit _ _ _ _ => .cmd 0x700000000 0x400000000
  | .reserved5 => .cmd 0x700000000 0x500000000
  | .reserved6 => .cmd 0x700000000 0x600000000
  | .reserved7 => .cmd 0x700000000 0x700000000
  | .zero => .sym 0x3 0x0
  | .one => .sym 0x3 0x1
  | .start => .sym 0x3 0x2
  | .stop => .sym 0x3 0x3

/-- A code word matches a row. -/
def Row.Fits : Row → CodeWord → Prop
  | .cmd mask value, .cmd w => w &&& mask = value
  | .sym mask value, .sym c => c &&& mask = value
  | .cmd _ _, .sym _ => False
  | .sym _ _, .cmd _ => False

/-- Under the table's mask only the operation code of a command is left. -/
theorem packCommand_and_mask (op : BitVec 3) (operand : BitVec 32) :
    packCommand op operand &&& 0x700000000 = packCommand op 0 := by
  have mask : (0x700000000 : Command) = BitVec.allOnes 3 ++ (0 : BitVec 32) := by decide
  rw [mask, packCommand, packCommand, BitVec.and_append, BitVec.and_allOnes]
  simp

namespace OpcodeRow

/-- The instruction's code word matches its row. -/
def Statement (i : Instr) : Prop := (rowOf i).Fits (encode i)

theorem build : Statement .build := packCommand_and_mask 0 _
theorem hash (data : List Byte) (off : Nat) : Statement (.hash data off) := packCommand_and_mask 1 _
theorem convert (reg : Half) : Statement (.convert reg) := packCommand_and_mask 2 _
theorem generate (id : Byte) (batteryOk : Bool) (temperature : Half) :
    Statement (.generate id batteryOk temperature) := packCommand_and_mask 3 _
theorem transmit (b0 b1 b2 b3 : Byte) : Statement (.transmit b0 b1 b2 b3) := packCommand_and_mask 4 _
theorem reserved5 : Statement .reserved5 := packCommand_and_mask 5 _
theorem reserved6 : Statement .reserved6 := packCommand_and_mask 6 _
theorem reserved7 : Statement .reserved7 := packCommand_and_mask 7 _
theorem zero : Statement .zero := rfl
theorem one : Statement .one := rfl
theorem start : Statement .start := rfl
theorem stop : Statement .stop := rfl

end OpcodeRow

/-- One instruction of each row. -/
def rowSamples : List Instr :=
  [.build, .hash [] 0, .convert 0, .generate 0 false 0, .transmit 0 0 0 0, .reserved5, .reserved6, .reserved7,
    .zero, .one, .start, .stop]

/-- No two rows match one word: their masks are equal within a code space and their values differ. -/
theorem rows_disjoint : (rowSamples.map rowOf).Nodup := by decide

end Sys2Proof.Laws
end

