-- ==== Sys2Proof/Laws/Runs.lean ====
section
/-! SUPPORT. Runs of many edges: how they are put together, and the edges with no reset. -/

namespace Sys2Proof.Safety

open Sys2Proof.Machine

@[simp] theorem edges_zero (s : State) : edges 0 s = .next s := rfl

theorem edges_succ {s t : State} (n : Nat) (h : step s = .next t) : edges (n + 1) s = edges n t := by
  simp [edges, h]

/-- A run of one edge is a step. -/
theorem edges_one {s t : State} (h : step s = .next t) : edges 1 s = .next t := edges_succ 0 h

/-- A run of m + n edges is a run of n edges from where m edges lead. -/
theorem edges_add {s t : State} {m : Nat} (n : Nat) (h : edges m s = .next t) : edges (m + n) s = edges n t := by
  induction m generalizing s with
  | zero => cases h; rw [Nat.zero_add]
  | succ m ih =>
    rw [Nat.succ_add]
    cases hs : step s with
    | next r => rw [edges_succ _ hs] at h ⊢; exact ih h
    | fault r => simp [edges, hs] at h
    | refused r => simp [edges, hs] at h

/-- No reset for the next edge. -/
theorem noResetFor_head {n : Nat} {s : State} (h : NoResetFor (n + 1) s) : (portIn s).rst = false := by
  unfold portIn
  cases hi : s.inputs with
  | nil => rfl
  | cons p ps => exact h p (by simp [hi])

/-- No reset for the edges left after the first n. -/
theorem noResetFor_drop {n m : Nat} {s t : State} (h : NoResetFor (n + m) s) (ht : t.inputs = s.inputs.drop n) :
    NoResetFor m t := by
  intro p hp
  rw [ht] at hp
  apply h p
  rw [List.take_add]
  exact List.mem_append_right _ hp

/-- No reset for fewer edges. -/
theorem noResetFor_mono {n m : Nat} {s : State} (h : NoResetFor n s) (hm : m ≤ n) : NoResetFor m s :=
  fun p hp => h p (List.take_subset_take_left _ hm hp)

/-- A stopped run has not ended (70_reset_and_hazards.md R222, 60_exceptions.md R187). -/
theorem not_ended_of_stopped {h : HostRun} (hs : Stopped h.state) : ¬ Ended h := fun he => he.2.2 hs

/-- Every run that ended, ended well (R222). -/
theorem endedWell_of_ended {h : HostRun} (he : Ended h) : EndedWell h := ⟨he, Classical.not_not.1 he.2.2⟩

/-- Everything one edge of a host's run can do. -/
theorem hostEdge_next {h h' : HostRun} (he : hostEdge h = .next h') :
    ∃ t, step { h.state with inputs := [(hostDrive h).1] } = .next t ∧ h'.state = t ∧ h'.start = h.start ∧
      h'.left = (hostDrive h).2 ∧ h'.ticks = h.ticks ++ [⟨{ h.state with inputs := [(hostDrive h).1] }, t⟩] := by
  unfold hostEdge at he
  dsimp only at he
  split at he
  · rename_i t ht
    cases he
    exact ⟨t, ht, rfl, rfl, rfl, rfl⟩
  · cases he
  · cases he

/-- Where the payload keeps the duty (e) of R199, every index that a set bit selects is inside the table. -/
theorem indicesBelow_of_allowed {data : List Byte} {off size : Nat}
    (h : 8 * data.length + off ≤ size ∨ lastBitsClear data off size = true) : IndicesBelow data off size := by
  intro p hp hb
  rcases h with h | h
  · omega
  · have hq := List.all_eq_true.1 h p (List.mem_range.2 hp)
    simpa [hb] using hq

/-! ## The host's duties along a run (R199) -/

@[simp] theorem keepsDuties_nil (v : HostView) : keepsDuties v [] = true := rfl

/-- The duties along a run are the duties at its first edge, and those of the rest with what the host then knows. -/
@[simp] theorem keepsDuties_cons (v : HostView) (m : HostMove) (k : Tick) (rest : List (HostMove × Tick)) :
    keepsDuties v ((m, k) :: rest) = true ↔ HostDutiesMet m v k ∧ keepsDuties (v.after m k) rest = true := by
  rw [keepsDuties, Bool.and_eq_true, decide_eq_true_eq]

/-- A host that keeps its duties along a run keeps those of the command port at every edge of it. -/
theorem dutiesMet_of_keepsDuties {v : HostView} {run : List (HostMove × Tick)} (h : keepsDuties v run = true) :
    ∀ e ∈ run, DutiesMet e.2.before := by
  induction run generalizing v with
  | nil => intro e he; cases he
  | cons e rest ih =>
    have ⟨first, others⟩ := (keepsDuties_cons v e.1 e.2 rest).1 h
    intro x hx
    rcases List.mem_cons.1 hx with rfl | hx
    · exact first.1
    · exact ih others x hx

/-- A result that the host has not read waits until it is read, or the block is reset. -/
theorem unread_after {v : HostView} {m : HostMove} {k : Tick} (hr : (portIn k.before).rst = false)
    (hu : v.unread = true) (hm : m.readsRes = false) : (v.after m k).unread = true := by
  simp [HostView.after, hr, hu, hm]

/-- An edge that is no reset keeps `res` readable (R216). -/
theorem doneSeen_after {v : HostView} {m : HostMove} {k : Tick} (hr : (portIn k.before).rst = false)
    (hd : v.doneSeen = true) : (v.after m k).doneSeen = true := by
  simp [HostView.after, hr, hd]

end Sys2Proof.Safety
end

