-- ==== Sys2Proof/Tests/Slice0.lean ====
section
/-! SUPPORT. Tests. Expected values are those of spec/ (95_test_vectors.md, 30_encoding.md), not the model's. A theorem
`witness_<Name>` shows a concrete state and operands that meet the hypotheses of Obligations.<Name> together. -/

namespace Sys2Proof.Tests

open Sys2Proof Sys2Proof.Machine Sys2Proof.Safety

/-! ## Small states -/

/-- The state after an instruction. -/
def ran (i : Instr) (s : State) : State :=
  match exec i s with
  | .next t => t
  | .fault _ => s
  | .refused _ => s

/-- The state after one edge. -/
def ticked (s : State) : State :=
  match step s with
  | .next t => t
  | .fault _ => s
  | .refused _ => s

/-- Whether an outcome is a next state. -/
def completes : Host.Outcome State Fault Refusal → Bool
  | .next _ => true
  | .fault _ => false
  | .refused _ => false

theorem step_ticked {s : State} (h : completes (step s) = true) : step s = .next (ticked s) := by
  unfold ticked
  cases e : step s <;> simp_all [completes]

theorem exec_ran {i : Instr} {s : State} (h : completes (exec i s) = true) : exec i s = .next (ran i s) := by
  unfold ran
  cases e : exec i s <;> simp_all [completes]

/-- The invariant, computed. -/
def meetsInv (s : State) : Bool := decide (StateInv s)

theorem stateInv_of {s : State} (h : meetsInv s = true) : StateInv s := of_decide_eq_true h

/-- The ports that present a command. -/
def cmdPorts (w : Command) : PortIn := { idlePorts with cmdValid := true, cmd := w }

/-- The ports of a reset edge. -/
def rstPorts : PortIn := { idlePorts with rst := true, cmdValid := true }

/-- A state whose next edge has the given ports. -/
def facing (p : PortIn) (s : State) : State := { s with inputs := [p] }

/-- Reset, then BUILD. -/
def built : State := ran .build State.reset

/-- The record with M = 32. -/
def config32 : Config := { defaultConfig with tableSize := 32 }

/-- The same with M = 32. -/
def built32 : State := ran .build { State.reset with cfg := config32 }

/-- A transmission of the document's frame at symbol `k`, in the on-duration with `n` ticks left. -/
def txOn (k : Fin 34) (n : Nat) : State :=
  { State.reset with busy := true, txPhase := .on, ookOut := true, txFrame := 0xE6813613, txK := k, txTimer := n }

/-- The same in the off-duration. -/
def txOff (k : Fin 34) (n : Nat) : State :=
  { State.reset with busy := true, txPhase := .off, txFrame := 0xE6813613, txK := k, txTimer := n }

/-- A block stopped by E_NOTABLE. -/
def stopped : State := ran (.hash [0x80] 4) State.reset

/-! ## WellFormed: an ill-formed term for each check -/

theorem test_wellFormed_refuses_four_payload_bytes : ¬ (Instr.hash [1, 2, 3, 4] 0).WellFormed := by decide
theorem test_wellFormed_refuses_offset_32 : ¬ (Instr.hash [] 32).WellFormed := by decide
theorem test_wellFormed_admits_the_largest_hash : (Instr.hash [1, 2, 3] 31).WellFormed := by decide

/-! ## Decode: words written out from 30_encoding.md R76, R80 to R86 -/

theorem test_decode_build : decodeTableWord 40 0b000_00000000_00000000_00000000_00000000 = some .build := by decide
theorem test_decode_build_ignores_operand :
    decodeTableWord 40 0b000_11111111_11111111_11111111_11111111 = some .build := by decide
theorem test_decode_hash :
    decodeTableWord 40 0b001_11_0_00100_11100110_10000001_00110110 = some (.hash [0xE6, 0x81, 0x36] 4) := by decide
theorem test_decode_hash_short :
    decodeTableWord 40 0b001_01_1_11111_10000000_11111111_11111111 = some (.hash [0x80] 31) := by decide
theorem test_decode_convert :
    decodeTableWord 40 0b010_1111111111111111_0100101100000000 = some (.convert 0x4B00) := by decide
theorem test_decode_generate :
    decodeTableWord 40 0b011_11100110_0000000_1_0000000100110110 = some (.generate 0xE6 true 310) := by decide
theorem test_decode_generate_battery_low :
    decodeTableWord 40 0b011_01011010_1111111_0_1111111111111000 = some (.generate 0x5A false 0xFFF8) := by decide
theorem test_decode_transmit :
    decodeTableWord 40 0b100_11100110_10000001_00110110_00010011 = some (.transmit 0xE6 0x81 0x36 0x13) := by decide
theorem test_decode_reserved5 : decodeTableWord 40 0x500000000 = some .reserved5 := by decide
theorem test_decode_reserved6 : decodeTableWord 40 0x6FFFFFFFF = some .reserved6 := by decide
theorem test_decode_reserved7 : decodeTableWord 40 0x7FFFFFFFF = some .reserved7 := by decide
theorem test_decode_zero : decodeTableWord 8 0b00 = some .zero := by decide
theorem test_decode_one : decodeTableWord 8 0b01 = some .one := by decide
theorem test_decode_start : decodeTableWord 8 0b10 = some .start := by decide
theorem test_decode_stop : decodeTableWord 8 0b11 = some .stop := by decide
theorem test_decode_refuses_bit_35 : codeWordOf 40 0x800000000 = .error .notACommandWord := by decide
theorem test_decode_refuses_symbol_4 : codeWordOf 8 4 = .error .notASymbolCode := by decide
theorem test_encode_generate : encode (.generate 0xE6 true 310) = .cmd 0x3E6010136 := by decide

/-! ## The step runs the word placed for it -/

theorem test_step_runs_a_placed_command :
    ticked (State.reset.withFetchWord 40 0x200004B00) = ran (.convert 0x4B00) State.reset := by decide
theorem test_step_runs_a_placed_one :
    (ticked (State.reset.withFetchWord 8 0b01)).txTimer = 499 ∧ fetchWord (State.reset.withFetchWord 8 0b01) = some (.sym 1) := by
  decide

/-! ## One instruction at a time (95_test_vectors.md) -/

set_option maxRecDepth 4000 in
/-- Section 2.1: tbl_raddr 0, 4, 27, 28. -/
theorem test_build :
    ([0, 4, 27, 28].map (tblRdata built) = [0x3E, 0xF1, 0xF4, 0x00]) ∧ built.tableValid = true ∧ built.done = true := by decide
/-- Section 2.5: a second BUILD. -/
theorem test_build_twice : ran .build built = { built with fault := 3, done := false } := by decide
set_option maxRecDepth 4000 in
/-- Section 2.2, the rows `80 00` at 27 and `00 00 02` at 5. -/
theorem test_hash : (ran (.hash [0x80, 0x00] 27) built).res = 0xF4 ∧ (ran (.hash [0x00, 0x00, 0x02] 5) built).res = 0xF4 := by
  decide
set_option maxRecDepth 4000 in
/-- Section 2.2, the row `00 00 01` at 5: E_RANGE with M = 28, 0x7A with M = 32. -/
theorem test_hash_past_the_table :
    (ran (.hash [0x00, 0x00, 0x01] 5) built).fault = 4 ∧ (ran (.hash [0x00, 0x00, 0x01] 5) built32).res = 0x7A := by decide
/-- Section 2.3: 0xFFE0 and 0x0020. -/
theorem test_convert : (ran (.convert 0xFFE0) State.reset).res = 0x0000FFFD ∧ (ran (.convert 0x0020) State.reset).res = 3 := by
  decide
/-- Section 2.3: the extremes. -/
theorem test_convert_extremes :
    (ran (.convert 0x8008) State.reset).res = 0x0000F601 ∧ (ran (.convert 0x7FFF) State.reset).res = 0x000009FF := by decide
/-- Section 2.4: FF 8F FF 32 and 5A 0F F8 5D. -/
theorem test_generate :
    (ran (.generate 0xFF true 0xFFFF) built).res = 0xFF8FFF32 ∧ (ran (.generate 0x5A false 0xFFF8) built).res = 0x5A0FF85D := by
  decide
/-- Section 2.5: GENERATE before BUILD. -/
theorem test_generate_before_build : (ran (.generate 0xE6 true 310) State.reset).fault = 2 := by decide
/-- Section 2.4: the state after e0. -/
theorem test_transmit :
    ran (.transmit 0xE6 0x81 0x36 0x13) State.reset = { txOn 0 500 with done := false } := by decide
/-- Section 2.5: op 101. -/
theorem test_reserved5 : ran .reserved5 built = { built with fault := 1, done := false } := by decide
theorem test_reserved6 : (ran .reserved6 State.reset).fault = 1 := by decide
theorem test_reserved7 : (ran .reserved7 State.reset).fault = 1 := by decide
/-- Section 2.4, edge e0 + 23 500: symbol 4 is a Zero. -/
theorem test_zero : ticked (txOn 4 1) = txOff 4 2000 := by decide
/-- Section 2.4, edge e0 + 10 000: symbol 1 is a One. -/
theorem test_one : ticked (txOn 1 1) = txOff 1 4000 := by decide
/-- Section 2.4, edges e0 + 500 and e0 + 9500. -/
theorem test_start : ticked (txOn 0 1) = txOff 0 9000 ∧ ticked (txOff 0 1) = txOn 1 500 := by decide
/-- Section 2.4, edges e0 + 118 000 and e0 + 118 500. -/
theorem test_stop : ticked (txOn 33 1) = txOff 33 500 ∧
    ticked (txOff 33 1) = { txOff 33 1 with busy := false, done := true, txPhase := .idle } := by decide
/-- Section 3, P7: reset in the middle of a pulse. -/
theorem test_reset_in_a_pulse :
    (ticked (facing rstPorts (txOn 0 250))).ookOut = false ∧ (ticked (facing rstPorts (txOn 0 250))).busy = false := by decide
/-- Section 2.4: the duration of the document's frame. -/
theorem test_total : totalUs defaultConfig 0xE6813613 = 118500 := by decide

/-! ## Runs (95_test_vectors.md section 3) -/

/-- A run as the state, the results and the commands left. -/
def ranOn (n : Nat) (h : HostRun) : Option (State × List Seen × Nat) :=
  match commandRun n h with
  | .next h' => some (h'.state, h'.product.results, h'.left.length)
  | .fault _ => none
  | .refused _ => none

set_option maxRecDepth 4000 in
/-- P2, its second to fourth edge: `res` after CONVERT and GENERATE, the frame that TRANSMIT carries, six copies left. -/
theorem test_report :
    (ranOn 3 (reportRun built 0xE6 true 0x0F80)).map (fun r => (r.2.1.map Seen.res, r.1.txFrame, r.1.busy, r.2.2)) =
      some ([0x00000136, 0xE6813613], 0xE6813613, true, 6) := by decide

/-- A host that presents BUILD, CONVERT 0x0F80 and TRANSMIT, one an edge, then nothing. -/
def transmitting : State := { State.reset with inputs := [cmdPorts 0, cmdPorts 0x200000F80, cmdPorts 0x4E6813613] }

/-- A host that presents CONVERT 0x0F80 twice. -/
def converting : State := { State.reset with inputs := [cmdPorts 0x200000F80, cmdPorts 0x200000F80] }

/-- The move of a host that reads `res`. -/
def reading : HostMove := ⟨true, false⟩

/-- The move of a host that does nothing. -/
def resting : HostMove := ⟨false, false⟩

/-- R199 (c), R216: `res` may be read during a later TRANSMIT, not before any `done`, and must be read before it is
overwritten; (d): no pause while busy. -/
theorem test_reads_in_time :
    dutiesKeptFromReset [resting, resting, resting, reading] transmitting = true ∧
    dutiesKeptFromReset [reading, resting] converting = false ∧
    dutiesKeptFromReset [resting, reading] converting = true ∧
    dutiesKeptFromReset [resting, resting] converting = false ∧
    dutiesKeptFromReset [resting, resting, resting, ⟨false, true⟩] transmitting = false := by decide

/-- P4: HASH before BUILD stops the block, and BUILD is never presented. -/
theorem test_stopped_run :
    (ranOn 3 (runFromReset defaultConfig [fun _ => 0x144800000, fun _ => 0])).map (fun r => (r.1.fault, r.2.1.length, r.2.2)) =
      some (2, 1, 1) := by decide

/-- R196: exactly 2000 mV is OK. -/
theorem test_battery_threshold : batteryOk 2000 = true ∧ batteryOk 1999 = false := by decide

/-- R199 (e): section 2.2, the rows `00 00 02` and `00 00 01` at 5. -/
theorem test_last_bits :
    lastBitsClear [0x00, 0x00, 0x02] 5 28 = true ∧ lastBitsClear [0x00, 0x00, 0x01] 5 28 = false := by decide

/-! ## Witnesses -/

theorem witness_DecodeInvertsEncode : (Instr.hash [] 0).WellFormed ∧ (Instr.hash [1, 2, 3] 31).WellFormed := by decide

theorem witness_StepRunsTheDecodedInstruction :
    (fetchWord (facing (cmdPorts 0) State.reset) = some (.cmd 0) ∧ decode (.cmd 0) = .build) ∧
    (fetchWord (txOn 33 1) = some (.sym 3) ∧ decode (.sym 3) = .stop) := by decide

theorem witness_AcceptedCommandRuns :
    let s := facing (cmdPorts 0x7FFFFFFFF) State.reset
    s.txPhase = .idle ∧ s.busy = false ∧ s.fault = 0 ∧ (portIn s).rst = false ∧ (portIn s).cmdValid = true := by decide

theorem witness_NothingChangesWithoutACommand :
    built.txPhase = .idle ∧ (portIn built).rst = false ∧ (portIn built).cmdValid = false := by decide

theorem witness_ResetEdgeGivesResetValues : (portIn (facing rstPorts (txOn 5 7))).rst = true := by decide

theorem witness_CommandPortIsIgnoredUnlessReady :
    (idlePorts.rst = (cmdPorts 0).rst ∧ cmdReady stopped = false) ∧ cmdReady (txOn 0 1) = false := by decide

theorem witness_FaultIsStickyUntilReset :
    stopped.fault ≠ 0 ∧ (portIn stopped).rst = false ∧ step stopped = .next (ticked stopped) :=
  ⟨by decide, by decide, step_ticked (by decide)⟩

theorem witness_FaultedBlockStaysAsItIs :
    StateInv (facing (cmdPorts 0) stopped) ∧ (facing (cmdPorts 0) stopped).fault ≠ 0 ∧
    (portIn (facing (cmdPorts 0) stopped)).rst = false := ⟨stateInv_of (by decide), by decide, by decide⟩

theorem witness_RecordIsNeverWritten :
    step (facing (cmdPorts 0) State.reset) = .next (ticked (facing (cmdPorts 0) State.reset)) := step_ticked (by decide)

theorem witness_StepAlwaysAnswersANextState : StateInv built ∧ StateInv (txOn 0 500) ∧ StateInv (txOff 33 1) :=
  ⟨stateInv_of (by decide), stateInv_of (by decide), stateInv_of (by decide)⟩

theorem witness_StepKeepsTheInvariant :
    StateInv (facing (cmdPorts 0) State.reset) ∧
    step (facing (cmdPorts 0) State.reset) = .next (ticked (facing (cmdPorts 0) State.reset)) :=
  ⟨stateInv_of (by decide), step_ticked (by decide)⟩

theorem witness_ResetMeetsTheInvariant : defaultConfig.Legal ∧ config32.Legal := by decide

theorem witness_TimerStaysWithinNineThousand :
    StateInv (txOff 0 9000) ∧ (txOff 0 9000).cfg = defaultConfig ∧ (txOff 0 9000).txPhase ≠ .idle ∧ StateInv (txOn 7 1) :=
  ⟨stateInv_of (by decide), by decide, by decide, stateInv_of (by decide)⟩

theorem witness_TableEntriesAreSteppedSeeds : (0 < 1 ∧ 27 < 28) ∧ 27 < min 28 32 := by decide

theorem witness_StepRotatesRightAndTaps : (0 : Nat) < 8 ∧ (7 : Nat) < 8 := by decide

theorem witness_RecurrenceProperties : 126 < 127 ∧ 0 < 126 := by decide

theorem witness_BuildFillsTheTableOnce :
    (State.reset.tableValid = false ∧ 27 < State.reset.cfg.tableSize ∧ 28 ≥ State.reset.cfg.tableSize) ∧
    built.tableValid = true := by decide

theorem witness_OnlyBuildWritesTheTable :
    let s := facing (cmdPorts 0) State.reset
    step s = .next (ticked s) ∧ (portIn s).rst = false ∧ (ticked s).tbl ≠ s.tbl :=
  ⟨step_ticked (by decide), by decide, by decide⟩

theorem witness_HashIsTheXorOfSelectedEntries :
    IndicesBelow [0x00, 0x00, 0x02] 5 28 ∧ ¬ IndicesBelow [0x00, 0x00, 0x01] 5 28 := by decide

theorem witness_HashIsLinear :
    hash [0x80] [1, 2] 0 = .ok 1 ∧ hash [0x40] [1, 2] 0 = .ok 2 ∧ [(0x80 : Byte)].length = [(0x40 : Byte)].length := by decide

theorem witness_OneBitSelectsOneEntry :
    (7 < 8 * [(0x01 : Byte)].length ∧ (∀ q < 8 * [(0x01 : Byte)].length, bitAt [0x01] q = decide (q = 7)) ∧
      (builtTable defaultConfig)[7 + 4]? = some 0x9B) ∧
    ([(0x80 : Byte)].length = [(0x81 : Byte)].length ∧ (∀ q < 8, bitAt [0x81] q = (bitAt [0x80] q ^^ decide (q = 7))) ∧
      hash [0x80] (builtTable defaultConfig) 4 = .ok 0xF1) := by decide

theorem witness_HashOfConcatenation :
    hash [0xE6] (builtTable defaultConfig) 4 = .ok 0x68 ∧
    hash [0x01] (builtTable defaultConfig) (4 + 8 * [(0xE6 : Byte)].length) = .ok 0x46 := by decide

theorem witness_FoldOrderDoesNotMatter : (bitPositions [0xA5, 0x5A]).reverse.Perm (bitPositions [0xA5, 0x5A]) :=
  List.reverse_perm _

theorem witness_HashResultAndFaults :
    State.reset.tableValid = false ∧
    (built.tableValid = true ∧ TableHolds built (builtTable defaultConfig)) ∧
    IndicesBelow [0x00, 0x00, 0x02] 5 built.cfg.tableSize ∧ ¬ IndicesBelow [0x00, 0x00, 0x01] 5 built.cfg.tableSize := by decide

theorem witness_ReadBackPortShowsTheTable :
    (built.tableValid = true ∧ TableHolds built (builtTable defaultConfig) ∧
      (portIn (facing { idlePorts with tblRaddr := 27 } built)).tblRaddr = 27 ∧ (builtTable defaultConfig)[27]? = some 0xF4) ∧
    built.cfg.tableSize ≤ (28 : BitVec 5).toNat ∧ State.reset.tableValid = false := by decide

theorem witness_ConvertTables : config32.posTable = posTable ∧ config32.negTable = negTable := by decide

theorem witness_ConvertIsMonotonicAndOdd :
    (0x8000 : Half).toInt ≤ (0x7FFF : Half).toInt ∧ (0x8008 : Half) &&& 0x7 = 0 ∧ (0x8008 : Half) ≠ 0x8000 := by decide

theorem witness_GenerateResultAndFaults :
    State.reset.tableValid = false ∧ built.tableValid = true ∧ TableHolds built (builtTable defaultConfig) ∧
    24 + built.cfg.chkOffset ≤ built.cfg.tableSize := by decide

theorem witness_FrameShape :
    generate defaultConfig 0x80 false 0 (builtTable defaultConfig) = .ok [0x80, 0x00, 0x00, 0xF1] ∧
    generate defaultConfig 0x00 false 0xF000 (builtTable defaultConfig) = .ok [0x00, 0x00, 0x00, 0x00] := by decide

theorem witness_TableSizeDoesNotChangeFrames : defaultConfig.chkOffset = 4 := by decide

theorem witness_PulseSymbolsAdvanceOneEdge : (txOn 4 1).txPhase ≠ .idle ∧ 1 ≤ (txOn 4 1).txTimer := by decide

theorem witness_PulseSymbolsOnIdleChangeNothing : State.reset.txPhase = .idle := by decide

theorem witness_SequencerTransitions :
    ((portIn (txOn 0 2)).rst = false ∧ (txOn 0 2).txPhase ≠ .idle ∧ 1 < (txOn 0 2).txTimer) ∧
    ((txOn 0 1).txTimer = 1 ∧ (txOn 0 1).txPhase = .on) ∧
    ((txOff 32 1).txTimer = 1 ∧ (txOff 32 1).txPhase = .off ∧ (33 : Fin 34).val = (txOff 32 1).txK.val + 1) ∧
    (txOff 33 1).txK.val = 33 := by decide

theorem witness_SymbolsOfAFrame : (1 ≤ 1 ∧ 1 ≤ 32) ∧ (1 ≤ 32 ∧ 32 ≤ 32) := by decide

theorem witness_OnePulseFromStartToEnd :
    let s := txOn 33 500
    (s.cfg.Legal ∧ s.txPhase = .on ∧ s.ookOut = true ∧ s.busy = true ∧
      s.txTimer = onTicks s.cfg (symbolAt s.txFrame s.txK) ∧ NoResetFor 1000 s) ∧
    999 < onTicks s.cfg (symbolAt s.txFrame s.txK) + offTicks s.cfg (symbolAt s.txFrame s.txK) ∧
    1000 = onTicks s.cfg (symbolAt s.txFrame s.txK) + offTicks s.cfg (symbolAt s.txFrame s.txK) ∧ s.txK.val = 33 := by decide

theorem witness_OnePulseFromStartToEnd_next :
    let s := txOn 32 500
    (s.cfg.Legal ∧ s.txPhase = .on ∧ s.ookOut = true ∧ s.busy = true ∧
      s.txTimer = onTicks s.cfg (symbolAt s.txFrame s.txK) ∧ NoResetFor 4500 s) ∧
    4500 = onTicks s.cfg (symbolAt s.txFrame s.txK) + offTicks s.cfg (symbolAt s.txFrame s.txK) ∧
    (33 : Fin 34).val = s.txK.val + 1 := by decide

theorem witness_SequencerFollowsTheWaveform :
    let s := facing (cmdPorts 0x4E6813613) State.reset
    s.cfg.Legal ∧ s.txPhase = .idle ∧ cmdReady s = true ∧ (portIn s).cmdValid = true ∧
      decodeCommand (portIn s).cmd = .transmit 0xE6 0x81 0x36 0x13 ∧
      (0xE6813613 : Frame) = (0xE6 : Byte) ++ (0x81 : Byte) ++ (0x36 : Byte) ++ (0x13 : Byte) ∧
      118499 < totalUs s.cfg 0xE6813613 * s.cfg.ticksPerUs ∧
      118500 = totalUs s.cfg 0xE6813613 * s.cfg.ticksPerUs ∧ NoResetFor 118501 s := by decide

theorem witness_SequencerFollowsTheWaveform_idle :
    built.txPhase = .idle ∧ built.ookOut = false ∧ built.busy = false ∧ step built = .next (ticked built) ∧
    fetchWord built = none := ⟨by decide, by decide, by decide, step_ticked (by decide), by decide⟩

theorem witness_WaveAndLevelAgree : totalUs defaultConfig 0x00000000 ≤ 90500 := by decide

theorem witness_FrameDuration : (31 : Nat) < 32 := by decide

theorem witness_OnlyResetCutsATransmission :
    (step (txOff 33 1) = .next (ticked (txOff 33 1)) ∧ (txOff 33 1).txPhase ≠ .idle ∧ (ticked (txOff 33 1)).txPhase = .idle) ∧
    (ticked (facing rstPorts (txOn 0 9))).txPhase = .idle := ⟨⟨step_ticked (by decide), by decide, by decide⟩, by decide⟩

theorem witness_FrameStaysLatched :
    let s := facing (cmdPorts 0x4E6813613) State.reset
    step s = .next (ticked s) ∧ (portIn s).rst = false ∧ (ticked s).txFrame ≠ s.txFrame :=
  ⟨step_ticked (by decide), by decide, by decide⟩

theorem witness_ReservedCodesTakeBadOp :
    let s := facing (cmdPorts 0x500000000) State.reset
    s.txPhase = .idle ∧ cmdReady s = true ∧ (portIn s).rst = false ∧ (portIn s).cmdValid = true ∧
      5 ≤ ((portIn s).cmd.extractLsb' 32 3).toNat := by decide

theorem witness_FaultCodesHaveTheirCauses :
    let s := facing (cmdPorts 0x19C800000) built
    StateInv s ∧ s.fault = 0 ∧ step s = .next (ticked s) ∧ (ticked s).fault = 4 :=
  ⟨stateInv_of (by decide), by decide, step_ticked (by decide), by decide⟩

theorem witness_FaultEntryChangesNothingElse :
    exec .reserved6 built = .next (ran .reserved6 built) ∧ (ran .reserved6 built).fault ≠ built.fault :=
  ⟨exec_ran (by decide), by decide⟩

theorem witness_DutiesKeepTheBlockFaultFree :
    let s := facing (cmdPorts 0x1C4E68136) built
    StateInv s ∧ s.fault = 0 ∧ DutiesMet s ∧ step s = .next (ticked s) :=
  ⟨stateInv_of (by decide), by decide, by decide, step_ticked (by decide)⟩

theorem witness_DutiesKeepTheBlockFaultFree_held :
    let s := { txOn 0 5 with inputs := [cmdPorts 0, cmdPorts 0] }
    StateInv s ∧ s.fault = 0 ∧ cmdReady s = false ∧ DutiesMet s ∧ step s = .next (ticked s) :=
  ⟨stateInv_of (by decide), by decide, by decide, by decide, step_ticked (by decide)⟩

theorem witness_ConvertTransmitAndPulsesNeverFault :
    (StateInv built ∧ built.fault = 0 ∧ exec (.generate 1 true 0) built = .next (ran (.generate 1 true 0) built)) ∧
    ((txOn 1 1).txPhase ≠ .idle ∧ (portIn (txOn 1 1)).rst = false ∧ step (txOn 1 1) = .next (ticked (txOn 1 1))) :=
  ⟨⟨stateInv_of (by decide), by decide, exec_ran (by decide)⟩, by decide, by decide, step_ticked (by decide)⟩

theorem witness_ResultRegisterWrites : exec (.hash [] 0) built = .next (ran (.hash [] 0) built) := exec_ran (by decide)

theorem witness_DoneFlagAfterAccept :
    StateInv built ∧ built.fault = 0 ∧ exec (.convert 8) built = .next (ran (.convert 8) built) :=
  ⟨stateInv_of (by decide), by decide, exec_ran (by decide)⟩

theorem witness_OnlyTransmitStartsTheTransmitter :
    exec .build State.reset = .next (ran .build State.reset) ∧ State.reset.txPhase = .idle :=
  ⟨exec_ran (by decide), by decide⟩

end Sys2Proof.Tests
end

section
/-! The read-back port (10_state.md R38) and the edge with reset (R39). -/

namespace Sys2Proof.Machine

/-! ## The read-back port -/

/-- R38, the index inside a built table. -/
theorem tblRdata_of_read {s : State} {a : BitVec 5} {b : Byte} (hv : s.tableValid = true)
    (ha : a.toNat < s.cfg.tableSize) (hb : s.tbl.read a.toNat = some b) : tblRdata s a = b := by
  simp [tblRdata, hv, ha, hb]

/-- R38, no table. -/
theorem tblRdata_of_not_tableValid {s : State} (hv : s.tableValid = false) (a : BitVec 5) : tblRdata s a = 0 := by
  simp [tblRdata, hv]

/-- R38, the index at or past the table's end. -/
theorem tblRdata_of_tableSize_le {s : State} {a : BitVec 5} (ha : s.cfg.tableSize ≤ a.toNat) : tblRdata s a = 0 := by
  simp [tblRdata, Nat.not_lt.2 ha]

/-- A built table's entries are what the port shows. -/
theorem tblRdata_of_tableHolds {s : State} {T : List Byte} (hv : s.tableValid = true) (hT : Safety.TableHolds s T)
    {a : BitVec 5} {v : Byte} (ha : T[a.toNat]? = some v) : tblRdata s a = v := by
  obtain ⟨hlen, hread⟩ := hT
  obtain ⟨hlt, -⟩ := List.getElem?_eq_some_iff.1 ha
  exact tblRdata_of_read hv (hlen ▸ hlt) ((hread _ hlt).trans ha)

/-! ## The step and the input ports -/

/-- A step reads the ports only through `rst` and the word fetched, beside the state that the edge leaves. -/
theorem step_congr {s s' : State} (hr : (portIn s).rst = (portIn s').rst) (hw : fetchWord s = fetchWord s')
    (he : afterEdge s = afterEdge s') : step s = step s' := by
  simp only [step, hr, hw, he]

/-- The word fetched does not depend on the read-back index. -/
theorem fetchWord_tblRaddr (s : State) (p : PortIn) (a : BitVec 5) (rest : List PortIn) :
    fetchWord { s with inputs := { p with tblRaddr := a } :: rest } = fetchWord { s with inputs := p :: rest } := rfl

/-- An edge with reset, whatever else is presented (70_reset_and_hazards.md R210). -/
theorem step_of_rst {s : State} (hr : (portIn s).rst = true) : step s = .next (resetBlock (afterEdge s)) := by
  simp [step, hr]

/-- The block is ready when it is neither busy nor faulted (R36). -/
theorem cmdReady_eq_true {s : State} (hb : s.busy = false) (hf : s.fault = 0) : cmdReady s = true := by
  simp [cmdReady, hb, hf]

end Sys2Proof.Machine

namespace Sys2Proof.Proofs
open Sys2Proof.Machine

/-- Settles O30: the port by the cases of R38; a step fetches its word without looking at the index. -/
theorem readBackPortShowsTheTable : Obligations.ReadBackPortShowsTheTable := by
  unfold Obligations.ReadBackPortShowsTheTable
  refine ⟨fun s T a hport => ?_, fun s p a rest => ?_⟩
  · have hout : (portOut s).tblRdata = tblRdata s a := congrArg (tblRdata s) hport
    rw [hout]
    refine ⟨fun hv hT v hget => tblRdata_of_tableHolds hv hT hget, ?_⟩
    rintro (hv | ha)
    · exact tblRdata_of_not_tableValid hv a
    · exact tblRdata_of_tableSize_le ha
  · exact step_congr rfl (fetchWord_tblRaddr s p a rest) rfl

/-- Settles O7: the edge leaves `resetBlock`, whose elements are those of R39. -/
theorem resetEdgeGivesResetValues : Obligations.ResetEdgeGivesResetValues := by
  unfold Obligations.ResetEdgeGivesResetValues
  intro s hr
  exact ⟨resetBlock (afterEdge s), step_of_rst hr, resetBlock_tableValid _, resetBlock_res _, resetBlock_busy _,
    resetBlock_done _, resetBlock_fault _, resetBlock_txPhase _, resetBlock_ookOut _,
    cmdReady_eq_true (resetBlock_busy _) (resetBlock_fault _),
    tblRdata_of_not_tableValid (resetBlock_tableValid _)⟩

end Sys2Proof.Proofs
end

section
/-! The reserved operation codes (30_encoding.md R86) and the edge that accepts a command (10_state.md R36). -/

namespace Sys2Proof

/-- The operation codes from 101 on are the reserved ones (R86): a 3-bit code has no more than these three values. -/
theorem decodeCommand_of_five_le_opField {w : Command} (hop : 5 ≤ (opField w).toNat) :
    decodeCommand w = .reserved5 ∨ decodeCommand w = .reserved6 ∨ decodeCommand w = .reserved7 := by
  have hlt : (opField w).toNat < 8 := (opField w).isLt
  obtain h5 | h6 | h7 : (opField w).toNat = 5 ∨ (opField w).toNat = 6 ∨ (opField w).toNat = 7 := by omega
  · exact .inl (by simp [decodeCommand, h5])
  · exact .inr (.inl (by simp [decodeCommand, h6]))
  · exact .inr (.inr (by simp [decodeCommand, h7]))

namespace Machine

/-! ## The reserved instructions take E_BADOP -/

@[simp] theorem exec_reserved5 (s : State) : exec .reserved5 s = .next (raiseFault .badOp s) := rfl
@[simp] theorem exec_reserved6 (s : State) : exec .reserved6 s = .next (raiseFault .badOp s) := rfl
@[simp] theorem exec_reserved7 (s : State) : exec .reserved7 s = .next (raiseFault .badOp s) := rfl

/-- Every word with a reserved operation code takes E_BADOP, whatever its ignored bits (R86, R87). -/
theorem exec_decodeCommand_of_five_le_opField {w : Command} (hop : 5 ≤ (opField w).toNat) (s : State) :
    exec (decodeCommand w) s = .next (raiseFault .badOp s) := by
  obtain h5 | h6 | h7 := decodeCommand_of_five_le_opField hop
  · rw [h5, exec_reserved5]
  · rw [h6, exec_reserved6]
  · rw [h7, exec_reserved7]

/-! ## The accepting edge -/

/-- An edge that accepts a command runs its meaning (R36). -/
theorem step_of_command {s : State} (hr : (portIn s).rst = false) (hp : s.txPhase = .idle)
    (hv : (portIn s).cmdValid = true) (hc : cmdReady s = true) :
    step s = exec (decodeCommand (portIn s).cmd) (afterEdge s) := by
  simp [step, hr, fetchWord_command hr hp hv hc, decode]

end Machine
end Sys2Proof

namespace Sys2Proof.Proofs
open Sys2Proof.Machine

/-- Settles O53: a reserved code decodes to one of three instructions that all raise E_BADOP, which writes `fault` and
`done` alone; the accepting edge adds that its port values are used up. -/
theorem reservedCodesTakeBadOp : Obligations.ReservedCodesTakeBadOp := by
  unfold Obligations.ReservedCodesTakeBadOp
  refine ⟨fun s => ⟨exec_reserved5 s, exec_reserved6 s, exec_reserved7 s⟩, fun s hp hc hr hv hop => ?_⟩
  calc step s = exec (decodeCommand (portIn s).cmd) (afterEdge s) := step_of_command hr hp hv hc
    _ = .next (raiseFault .badOp (afterEdge s)) := exec_decodeCommand_of_five_le_opField hop _

end Sys2Proof.Proofs
end

section
/-! The generator of the whitening table: one step, bit by bit, and the entries as iterated steps (40_checksum.md R100, R101,
R104, R109). -/

namespace Sys2Proof.Machine

/-! ## The rotation -/

/-- The bit rotated out re-enters at bit 7; every other bit moves down by one. -/
theorem getLsbD_rotr8 (r : Byte) {i : Nat} (hi : i < 8) : (rotr8 r).getLsbD i = r.getLsbD ((i + 1) % 8) := by
  obtain hlow | rfl : i < 7 ∨ i = 7 := by omega
  · have hmod : (i + 1) % 8 = 1 + i := by omega
    simp [rotr8, hmod, hlow]
  · simp [rotr8]

/-- The bit rotated out, placed at bit 7, over the shifted register. -/
theorem rotr8_eq_or (r : Byte) : rotr8 r = r >>> 1 ||| (BitVec.ofBool (r.getLsbD 0)).setWidth 8 <<< 7 :=
  congrArg (fun out : Byte => r >>> 1 ||| (out <<< 7)) BitVec.and_one_eq_setWidth_ofBool_getLsbD

/-- Setting a clear bit 7 is flipping it. -/
theorem or_0x80_of_bit7_clear {x : Byte} (h7 : x.getLsbD 7 = false) : x ||| 0x80 = x ^^^ 0x80 := by
  refine BitVec.eq_of_getLsbD_eq fun i hi => ?_
  obtain hlow | rfl : i < 7 ∨ i = 7 := by omega
  · have hbit : (0x80#8).getLsbD i = false := by interval_cases i <;> rfl
    simp [hbit]
  · rw [BitVec.getLsbD_or, BitVec.getLsbD_xor, h7, Bool.false_or, Bool.false_xor]

theorem rotr8_of_bit0_clear {r : Byte} (h0 : r.getLsbD 0 = false) : rotr8 r = r >>> 1 := by
  have hout : (BitVec.ofBool false).setWidth 8 <<< 7 = (0 : Byte) := by decide
  rw [rotr8_eq_or, h0, hout]
  exact BitVec.or_zero

theorem rotr8_of_bit0_set {r : Byte} (h0 : r.getLsbD 0 = true) : rotr8 r = r >>> 1 ^^^ 0x80 := by
  have hout : (BitVec.ofBool true).setWidth 8 <<< 7 = (0x80 : Byte) := by decide
  rw [rotr8_eq_or, h0, hout]
  exact or_0x80_of_bit7_clear (by simp)

/-! ## One step -/

theorem lfsrStep_of_bit0_clear {r : Byte} (h0 : r.getLsbD 0 = false) (tap : Byte) : lfsrStep r tap = rotr8 r :=
  if_neg (by rw [h0]; decide)

theorem lfsrStep_of_bit0_set {r : Byte} (h0 : r.getLsbD 0 = true) (tap : Byte) : lfsrStep r tap = rotr8 r ^^^ tap :=
  if_pos h0

theorem getLsbD_lfsrStep (r tap : Byte) {i : Nat} (hi : i < 8) :
    (lfsrStep r tap).getLsbD i = (r.getLsbD ((i + 1) % 8) ^^ (r.getLsbD 0 && tap.getLsbD i)) := by
  rw [← getLsbD_rotr8 r hi]
  cases h0 : r.getLsbD 0 with
  | false => rw [lfsrStep_of_bit0_clear h0, Bool.false_and, Bool.xor_false]
  | true => rw [lfsrStep_of_bit0_set h0, BitVec.getLsbD_xor, Bool.true_and]

/-- The first reading of R104: the tap is folded in before the bit rotated out re-enters at bit 7. -/
theorem foldA_eq_lfsrStep (r : Byte) : Safety.foldA r = lfsrStep r 0x18 := by
  cases h0 : r.getLsbD 0 with
  | false =>
    rw [lfsrStep_of_bit0_clear h0, rotr8_eq_or, h0, Safety.foldA, h0]; rfl
  | true =>
    have hset : Safety.foldA r = (r >>> 1 ^^^ 0x18) ||| 0x80 := by
      rw [Safety.foldA, h0]
      rfl
    calc Safety.foldA r = (r >>> 1 ^^^ 0x18) ||| 0x80 := hset
      _ = (r >>> 1 ^^^ 0x18) ^^^ 0x80 := or_0x80_of_bit7_clear (by simp)
      _ = (r >>> 1 ^^^ 0x80) ^^^ 0x18 := by ac_rfl
      _ = lfsrStep r 0x18 := by rw [lfsrStep_of_bit0_set h0, rotr8_of_bit0_set h0]

/-- The second reading of R104: `0x98` is the bit that re-enters at bit 7 together with the tap. -/
theorem foldB_eq_lfsrStep (r : Byte) : Safety.foldB r = lfsrStep r 0x18 := by
  cases h0 : r.getLsbD 0 with
  | false => rw [lfsrStep_of_bit0_clear h0, rotr8_of_bit0_clear h0, Safety.foldB, h0]; rfl
  | true =>
    have hmask : (0x98 : Byte) = 0x80 ^^^ 0x18 := by decide
    rw [lfsrStep_of_bit0_set h0, rotr8_of_bit0_set h0, Safety.foldB, if_pos h0, hmask, BitVec.xor_assoc]

/-! ## The table -/

/-- Entry `i` is the seed stepped `i + 1` times: the seed itself is no entry (R101). -/
theorem getElem?_lfsrTable (seed tap : Byte) {M i : Nat} (hi : i < M) :
    (lfsrTable seed tap M)[i]? = some ((fun r => lfsrStep r tap)^[i + 1] seed) := by
  induction M generalizing seed i with
  | zero => omega
  | succ M ih =>
    rw [lfsrTable_succ, Function.iterate_succ_apply]
    cases i with
    | zero => rfl
    | succ i => rw [List.getElem?_cons_succ, ih _ (by omega)]

/-- The last entry is the register after all M steps, the seed where there is no step (R24). -/
theorem getLastD_lfsrTable (seed tap : Byte) (M : Nat) :
    (lfsrTable seed tap M).getLastD seed = (fun r => lfsrStep r tap)^[M] seed := by
  induction M generalizing seed with
  | zero => rfl
  | succ M ih => rw [lfsrTable_succ, List.getLastD_cons, ih, Function.iterate_succ_apply]

end Sys2Proof.Machine

namespace Sys2Proof.Proofs
open Sys2Proof.Machine

/-- Settles O18: the rotation's bits, with the tap folded in when bit 0 is set. -/
theorem stepRotatesRightAndTaps : Obligations.StepRotatesRightAndTaps := by
  unfold Obligations.StepRotatesRightAndTaps
  exact fun r tap i hi => getLsbD_lfsrStep r tap hi

/-- Settles O20: each reading by the register's bit 0. -/
theorem tapConventionsAreOneFunction : Obligations.TapConventionsAreOneFunction := by
  unfold Obligations.TapConventionsAreOneFunction
  exact fun r => ⟨foldA_eq_lfsrStep r, foldB_eq_lfsrStep r⟩

/-- Settles O19 by evaluating the generator, whose two tables are the document's bytes. -/
theorem referenceTable : Obligations.ReferenceTable := by
  unfold Obligations.ReferenceTable
  decide

/-- Settles O17: an entry depends on its index alone, so the two tables of the extension clause agree entry by entry. -/
theorem tableEntriesAreSteppedSeeds : Obligations.TableEntriesAreSteppedSeeds := by
  unfold Obligations.TableEntriesAreSteppedSeeds
  refine ⟨fun _ _ => rfl, fun seed tap M i hi => getElem?_lfsrTable seed tap hi, fun seed tap M M' i hi => ?_,
    lfsrTable_length, rfl, rfl, rfl⟩
  obtain ⟨hM, hM'⟩ := lt_min_iff.1 hi
  rw [getElem?_lfsrTable seed tap hM, getElem?_lfsrTable seed tap hM']

end Sys2Proof.Proofs
end

section
/-! BUILD (40_checksum.md R102, R103). -/

namespace Sys2Proof.Machine

/-- What BUILD leaves of a block whose table is not built: the generated bytes from index 0 on, the working register at the
last of them (R102, R24). -/
theorem exec_build_of_not_tableValid {s : State} (hv : s.tableValid = false) :
    exec .build s = .next (complete { accept s with
      tbl := s.tbl.writeRange 0 (Safety.builtTable s.cfg)
      lfsr := (fun r => lfsrStep r s.cfg.lfsrTap)^[s.cfg.tableSize] s.cfg.lfsrSeed
      tableValid := true }) := by
  rw [← getLastD_lfsrTable]
  exact if_neg (by rw [accept_tableValid, hv]; decide)

/-- A second BUILD takes E_REBUILD (R103). -/
theorem exec_build_of_tableValid {s : State} (hv : s.tableValid = true) :
    exec .build s = .next (raiseFault .rebuild s) :=
  if_pos hv

/-- Below TABLE_SIZE the storage that BUILD leaves holds the stepped seeds. -/
theorem read_writeRange_builtTable (m : Memory) (c : Config) {i : Nat} (hi : i < c.tableSize) :
    (m.writeRange 0 (Safety.builtTable c)).read i =
      some ((fun r => lfsrStep r c.lfsrTap)^[i + 1] c.lfsrSeed) := by
  have hlen : i < (Safety.builtTable c).length := (lfsrTable_length ..).symm ▸ hi
  calc (m.writeRange 0 (Safety.builtTable c)).read i = (Safety.builtTable c)[i]? := by
        simpa using Memory.read_writeRange (m := m) (i := 0) hlen
    _ = _ := getElem?_lfsrTable _ _ hi

/-- From TABLE_SIZE on the storage is as it was. -/
theorem read_writeRange_builtTable_past (m : Memory) (c : Config) {i : Nat} (hi : c.tableSize ≤ i) :
    (m.writeRange 0 (Safety.builtTable c)).read i = m.read i := by
  refine Memory.read_writeRange_other (.inr ?_)
  rwa [Safety.builtTable, lfsrTable_length, Nat.zero_add]

end Sys2Proof.Machine

namespace Sys2Proof.Proofs
open Sys2Proof.Machine

/-- Settles O22: the storage read back index by index, on both sides of TABLE_SIZE; the flag decides between the two
cases. -/
theorem buildFillsTheTableOnce : Obligations.BuildFillsTheTableOnce := by
  unfold Obligations.BuildFillsTheTableOnce
  refine ⟨fun s hv => ⟨_, exec_build_of_not_tableValid hv, fun i hi => ?_, fun i hi => ?_, rfl⟩,
    fun s hv => exec_build_of_tableValid hv⟩
  · exact read_writeRange_builtTable s.tbl s.cfg hi
  · exact read_writeRange_builtTable_past s.tbl s.cfg hi

end Sys2Proof.Proofs
end

section
/-! The applicator's closed form and HASH (40_checksum.md R105, R106). -/

namespace Sys2Proof.Machine

/-! ## The fold -/

/-- Where every selected read gives the table's byte, the fold is the XOR of these bytes over the set bits. -/
theorem hashFold_eq_xor {rd : Nat → Except TblError Byte} {data T : List Byte} {off : Nat} {ps : List Nat}
    (hrd : ∀ p ∈ ps, bitAt data p = true → rd (p + off) = .ok (T.getD (p + off) 0)) (acc : Byte) :
    hashFold rd data off ps acc =
      .ok ((ps.filter (bitAt data)).foldl (fun acc p => acc ^^^ T.getD (p + off) 0) acc) := by
  induction ps generalizing acc with
  | nil => rfl
  | cons p ps ih =>
    have ih := ih fun q hq => hrd q (List.mem_cons_of_mem _ hq)
    cases hb : bitAt data p with
    | false => rw [hashFold_clear _ _ _ _ hb, ih, List.filter_cons_of_neg (by simp [hb])]
    | true =>
      rw [hashFold_set _ _ hb (hrd p (List.mem_cons_self ..) hb), ih, List.filter_cons_of_pos hb, List.foldl_cons]

/-- Where some selected read fails, and `e` is the only way a read can fail, the fold fails with `e`. -/
theorem hashFold_eq_error {rd : Nat → Except TblError Byte} {data : List Byte} {off : Nat} {ps : List Nat} {e : TblError}
    (honly : ∀ i x, rd i = .error x → x = e) (hfail : ∃ p ∈ ps, bitAt data p = true ∧ rd (p + off) = .error e)
    (acc : Byte) : hashFold rd data off ps acc = .error e := by
  induction ps generalizing acc with
  | nil => simp at hfail
  | cons p ps ih =>
    obtain ⟨q, hq, hbq, hrq⟩ := hfail
    obtain rfl | hq := List.mem_cons.1 hq
    · exact hashFold_stop _ _ hbq hrq
    · have ih := ih ⟨q, hq, hbq, hrq⟩
      cases hb : bitAt data p with
      | false => rw [hashFold_clear _ _ _ _ hb, ih]
      | true =>
        cases hr : rd (p + off) with
        | ok b => rw [hashFold_set _ _ hb hr, ih]
        | error x => rw [hashFold_stop _ _ hb hr, honly _ _ hr]

/-! ## The pure function -/

theorem tableEntry_of_lt {T : List Byte} {i : Nat} (hi : i < T.length) : tableEntry T i = .ok (T.getD i 0) := by
  simp [tableEntry, List.getElem?_eq_getElem hi]

theorem tableEntry_of_length_le {T : List Byte} {i : Nat} (hi : T.length ≤ i) : tableEntry T i = .error .outOfRange := by
  simp [tableEntry, List.getElem?_eq_none hi]

/-- A table given as a sequence has no unwritten entries. -/
theorem tableEntry_error {T : List Byte} {i : Nat} {e : TblError} (he : tableEntry T i = .error e) : e = .outOfRange := by
  obtain hi | hi := Nat.lt_or_ge i T.length
  · rw [tableEntry_of_lt hi] at he
    cases he
  · rw [tableEntry_of_length_le hi] at he
    cases he
    rfl

/-- R105, the function's domain. -/
theorem hash_of_indicesBelow {data T : List Byte} {off : Nat} (hin : Safety.IndicesBelow data off T.length) :
    hash data T off = .ok (Safety.checksumOf data T off) :=
  hashFold_eq_xor (fun p hp hb => tableEntry_of_lt (hin p (List.mem_range.1 hp) hb)) 0

/-- R105, outside the domain: some set bit reads past the table. -/
theorem hash_of_not_indicesBelow {data T : List Byte} {off : Nat} (hout : ¬ Safety.IndicesBelow data off T.length) :
    hash data T off = .error .outOfRange := by
  simp only [Safety.IndicesBelow, not_forall, Nat.not_lt] at hout
  obtain ⟨p, hp, hb, hpast⟩ := hout
  exact hashFold_eq_error (rd := tableEntry T) (fun _ _ => tableEntry_error)
    ⟨p, List.mem_range.2 hp, hb, tableEntry_of_length_le hpast⟩ 0

/-! ## The applicator over `TBL` -/

/-- A built table reads as the sequence it holds (R52). -/
theorem readTbl_of_tableHolds {s : State} {T : List Byte} (hT : Safety.TableHolds s T) (i : Nat) :
    readTbl s i = tableEntry T i := by
  obtain ⟨hlen, hread⟩ := hT
  obtain hi | hi := Nat.lt_or_ge i T.length
  · rw [tableEntry_of_lt hi]
    exact readTbl_inRange (hlen ▸ hi) ((hread i hi).trans (by simp [List.getElem?_eq_getElem hi]))
  · rw [tableEntry_of_length_le hi]
    exact readTbl_outOfRange (hlen ▸ hi)

/-- Over a built table the block computes the pure function. -/
theorem hashTbl_of_tableHolds {s : State} {T : List Byte} (hT : Safety.TableHolds s T) (data : List Byte) (off : Nat) :
    hashTbl s data off = hash data T off :=
  hashFold_congr (fun p _ _ => readTbl_of_tableHolds hT (p + off)) 0

theorem withChecksum_of_ok {s : State} {data : List Byte} {off : Nat} {b : Byte} (h : hashTbl s data off = .ok b)
    (k : Byte → State) : withChecksum s data off k = .next (complete (k b)) := by
  simp [withChecksum, h]

theorem withChecksum_of_outOfRange {s : State} {data : List Byte} {off : Nat}
    (h : hashTbl s data off = .error .outOfRange) (k : Byte → State) :
    withChecksum s data off k = .next (raiseFault .range s) := by
  simp [withChecksum, h]

/-! ## HASH -/

/-- Before BUILD, HASH takes E_NOTABLE whatever its operands (R55, R185). -/
theorem exec_hash_of_not_tableValid {s : State} (hv : s.tableValid = false) (data : List Byte) (off : Nat) :
    exec (.hash data off) s = .next (raiseFault .noTable s) :=
  if_neg (by rw [accept_tableValid, hv]; decide)

/-- With the table built, HASH is the applicator followed by the write of `acc` and `res` (R106). -/
theorem exec_hash_of_tableValid {s : State} (hv : s.tableValid = true) (data : List Byte) (off : Nat) :
    exec (.hash data off) s =
      withChecksum (accept s) data off fun b => { accept s with acc := b, res := b.setWidth 32 } :=
  if_pos hv

end Sys2Proof.Machine

namespace Sys2Proof.Proofs
open Sys2Proof.Machine

/-- Settles O24: on its domain the fold is the closed form; elsewhere it ends at a read past the table. -/
theorem hashIsTheXorOfSelectedEntries : Obligations.HashIsTheXorOfSelectedEntries := by
  unfold Obligations.HashIsTheXorOfSelectedEntries
  exact ⟨fun _ _ _ hin => hash_of_indicesBelow hin, fun _ _ _ hout => hash_of_not_indicesBelow hout⟩

/-- Settles O29: with a built table HASH answers what the pure function does (R105), and that decides which of the two
next states it is. -/
theorem hashResultAndFaults : Obligations.HashResultAndFaults := by
  unfold Obligations.HashResultAndFaults
  intro s data T off
  refine ⟨fun hv => exec_hash_of_not_tableValid hv data off, fun hv hT hin => ?_, fun hv hT hout => ?_⟩
  · have hsum : hashTbl (accept s) data off = .ok (Safety.checksumOf data T off) :=
      (hashTbl_of_tableHolds (s := accept s) hT data off).trans (hash_of_indicesBelow (hT.1 ▸ hin))
    rw [exec_hash_of_tableValid hv, withChecksum_of_ok hsum]
    rfl
  · have hrange : hashTbl (accept s) data off = .error .outOfRange :=
      (hashTbl_of_tableHolds (s := accept s) hT data off).trans (hash_of_not_indicesBelow (hT.1 ▸ hout))
    rw [exec_hash_of_tableValid hv, withChecksum_of_outOfRange hrange]
    rfl

end Sys2Proof.Proofs
end

section
/-! The temperature codec: `convert` and CONVERT (41_tempcodec.md R120 to R129). -/

namespace Sys2Proof.Machine

/-! ## The split of the register (R121) -/

/-- The whole part is the floor of the register by 128. -/
theorem wholePart_eq (reg : Half) : wholePart reg = reg.toInt / 128 := rfl

/-- Masking bits 6..3 and shifting them down is a floor by 8 modulo 16. -/
theorem toNat_fracBin (reg : Half) : (fracBin reg).toNat = reg.toNat / 8 % 16 := by
  have hfield : (reg.toNat &&& 120) >>> 3 = reg.toNat / 8 % 16 := by
    rw [Nat.shiftRight_and_distrib, Nat.shiftRight_eq_div_pow]
    exact Nat.and_two_pow_sub_one_eq_mod _ 4
  simp [fracBin, hfield]

/-- The floor decomposition of R121: `register >> 3 = 16 * whole + frac_bin`, for either sign. -/
theorem toInt_div_eight (reg : Half) : reg.toInt / 8 = 16 * wholePart reg + (fracBin reg).toNat := by
  have hval := reg.toInt_eq_toNat_cond
  have hfrac := toNat_fracBin reg
  rw [wholePart_eq]
  omega

/-- The table is chosen by the register's sign (R122). -/
theorem wholePart_nonneg_iff (reg : Half) : 0 ≤ wholePart reg ↔ 0 ≤ reg.toInt := by
  rw [wholePart_eq]
  omega

theorem wholePart_range (reg : Half) : -256 ≤ wholePart reg ∧ wholePart reg ≤ 255 := by
  have hlo := reg.le_toInt
  have hhi := reg.toInt_lt
  rw [wholePart_eq]
  omega

/-! ## The rounding tables (R122 to R124) -/

/-- POS_TABLE is `10 * i / 16` to the nearest integer, halves up (R123). -/
theorem toNat_posTable_get (i : Fin 16) : (posTable.get i).toNat = (20 * i.val + 16) / 32 := by
  revert i
  decide

/-- NEG_TABLE is `10 * i / 16` to the nearest integer, halves down (R124). -/
theorem toNat_negTable_get (i : Fin 16) : (negTable.get i).toNat = (20 * i.val + 15) / 32 := by
  revert i
  decide

theorem roundingEntry_of_nonneg {c : Config} {reg : Half} (hpos : c.posTable = posTable) (h : 0 ≤ reg.toInt) :
    (roundingEntry c reg).toNat = (20 * (fracBin reg).toNat + 16) / 32 := by
  rw [roundingEntry, if_pos ((wholePart_nonneg_iff reg).2 h), hpos, toNat_posTable_get]
  rfl

theorem roundingEntry_of_neg {c : Config} {reg : Half} (hneg : c.negTable = negTable) (h : reg.toInt < 0) :
    (roundingEntry c reg).toNat = (20 * (fracBin reg).toNat + 15) / 32 := by
  rw [roundingEntry, if_neg (by rw [wholePart_nonneg_iff]; omega), hneg, toNat_negTable_get]
  rfl

theorem roundingEntry_le_nine {c : Config} (hpos : c.posTable = posTable) (hneg : c.negTable = negTable) (reg : Half) :
    (roundingEntry c reg).toNat ≤ 9 := by
  have hfrac := (fracBin reg).isLt
  obtain h | h := le_or_gt 0 reg.toInt
  · rw [roundingEntry_of_nonneg hpos h]
    omega
  · rw [roundingEntry_of_neg hneg h]
    omega

/-- The entry, with the table as a list and the index as the register's bits 6..3. -/
theorem roundingEntry_eq_getD (c : Config) (reg : Half) :
    roundingEntry c reg =
      if 0 ≤ reg.toInt / 128 then c.posTable.toList.getD (reg.toNat / 8 % 16) 0
      else c.negTable.toList.getD (reg.toNat / 8 % 16) 0 := by
  have hget (v : Vector (BitVec 4) 16) : v.get (fracBin reg).toFin = v.toList.getD (reg.toNat / 8 % 16) 0 := by
    rw [← toNat_fracBin, List.getD_eq_getElem _ _ (by simpa using (fracBin reg).isLt), Vector.getElem_toList]
    rfl
  rw [roundingEntry, hget, hget]
  rfl

/-! ## Rounding half away from zero -/

theorem roundHalfAway_of_nonneg {num : Int} (h : 0 ≤ num) (den : Int) :
    roundHalfAway num den = (2 * num + den) / (2 * den) :=
  if_pos h

theorem roundHalfAway_of_neg {num : Int} (h : num < 0) (den : Int) :
    roundHalfAway num den = -((2 * -num + den) / (2 * den)) :=
  if_neg (Int.not_le.2 h)

theorem roundHalfAway_zero {den : Int} (hden : 0 < den) : roundHalfAway 0 den = 0 := by
  rw [roundHalfAway_of_nonneg le_rfl]
  exact Int.ediv_eq_zero_of_lt (by omega) (by omega)

theorem roundHalfAway_nonneg {num den : Int} (hden : 0 < den) (h : 0 ≤ num) : 0 ≤ roundHalfAway num den := by
  rw [roundHalfAway_of_nonneg h]
  exact Int.ediv_nonneg (by omega) (by omega)

/-- Rounding away from zero treats the two signs alike. -/
theorem roundHalfAway_neg {den : Int} (hden : 0 < den) (num : Int) :
    roundHalfAway (-num) den = -roundHalfAway num den := by
  obtain h | rfl | h := lt_trichotomy num 0
  · rw [roundHalfAway_of_neg h, roundHalfAway_of_nonneg (by omega), Int.neg_neg]
  · rw [Int.neg_zero, roundHalfAway_zero hden, Int.neg_zero]
  · rw [roundHalfAway_of_neg (by omega), roundHalfAway_of_nonneg (by omega), Int.neg_neg]

theorem roundHalfAway_mono_of_nonneg {m n den : Int} (hden : 0 < den) (hm : 0 ≤ m) (hmn : m ≤ n) :
    roundHalfAway m den ≤ roundHalfAway n den := by
  rw [roundHalfAway_of_nonneg hm, roundHalfAway_of_nonneg (hm.trans hmn)]
  exact Int.ediv_le_ediv (by omega) (by omega)

/-- Two negative numerators are the mirror image of two positive ones; between them lies 0. -/
theorem roundHalfAway_mono {m n den : Int} (hden : 0 < den) (hmn : m ≤ n) :
    roundHalfAway m den ≤ roundHalfAway n den := by
  obtain hm | hm := le_or_gt 0 m
  · exact roundHalfAway_mono_of_nonneg hden hm hmn
  · have hmirror := roundHalfAway_neg hden m
    obtain hn | hn := le_or_gt 0 n
    · have hlow := roundHalfAway_nonneg hden (num := -m) (by omega)
      have hhigh := roundHalfAway_nonneg hden hn
      omega
    · have hflip := roundHalfAway_mono_of_nonneg hden (m := -n) (n := -m) (by omega) (by omega)
      rw [roundHalfAway_neg hden, roundHalfAway_neg hden] at hflip
      omega

/-! ## The function -/

/-- R125 in the register's own terms. -/
theorem convert_eq_getD (c : Config) (reg : Half) :
    convert c reg = reg.toInt / 128 * 10 +
      (if 0 ≤ reg.toInt / 128 then c.posTable.toList.getD (reg.toNat / 8 % 16) 0
       else c.negTable.toList.getD (reg.toNat / 8 % 16) 0).toNat := by
  rw [convert, roundingEntry_eq_getD, wholePart_eq]

/-- R126: ten times the whole part moves out of the rounding, and the two tables round the fraction's tie towards the side
that is away from zero. -/
theorem convert_eq_roundHalfAway {c : Config} (hpos : c.posTable = posTable) (hneg : c.negTable = negTable) (reg : Half) :
    convert c reg = roundHalfAway (10 * (reg.toInt / 8)) 16 := by
  have hsplit := toInt_div_eight reg
  obtain h | h := le_or_gt 0 reg.toInt
  · rw [convert, roundingEntry_of_nonneg hpos h, roundHalfAway_of_nonneg (by omega)]
    omega
  · rw [convert, roundingEntry_of_neg hneg h, roundHalfAway_of_neg (by omega)]
    omega

/-- `convert` reads the register only through its value shifted right by 3, whatever the tables. -/
theorem convert_congr (c : Config) {a b : Half} (h : a.toInt / 8 = b.toInt / 8) : convert c a = convert c b := by
  have ha := toInt_div_eight a
  have hb := toInt_div_eight b
  have hfa := (fracBin a).isLt
  have hfb := (fracBin b).isLt
  have hwhole : wholePart a = wholePart b := by omega
  have hfrac : fracBin a = fracBin b := BitVec.eq_of_toNat_eq (by omega)
  rw [convert, convert, roundingEntry, roundingEntry, hwhole, hfrac]

/-- R127: between the roundings of the two extreme registers. -/
theorem convert_range {c : Config} (hpos : c.posTable = posTable) (hneg : c.negTable = negTable) (reg : Half) :
    -2560 ≤ convert c reg ∧ convert c reg ≤ 2559 := by
  have hlo := reg.le_toInt
  have hhi := reg.toInt_lt
  have hmin : roundHalfAway (10 * -4096) 16 = -2560 := by decide
  have hmax : roundHalfAway (10 * 4095) 16 = 2559 := by decide
  rw [convert_eq_roundHalfAway hpos hneg, ← hmin, ← hmax]
  exact ⟨roundHalfAway_mono (by decide) (by omega), roundHalfAway_mono (by decide) (by omega)⟩

/-- R129, first half. -/
theorem convert_mono {c : Config} (hpos : c.posTable = posTable) (hneg : c.negTable = negTable) {a b : Half}
    (h : a.toInt ≤ b.toInt) : convert c a ≤ convert c b := by
  rw [convert_eq_roundHalfAway hpos hneg, convert_eq_roundHalfAway hpos hneg]
  exact roundHalfAway_mono (by decide) (by omega)

/-- R129, second half: the least register has no negative, and elsewhere an exact shift commutes with the sign. -/
theorem convert_neg {c : Config} (hpos : c.posTable = posTable) (hneg : c.negTable = negTable) {r : Half}
    (hdvd : 8 ∣ r.toInt) (hmin : r ≠ BitVec.intMin 16) : convert c (-r) = -convert c r := by
  rw [convert_eq_roundHalfAway hpos hneg, convert_eq_roundHalfAway hpos hneg, ← roundHalfAway_neg (by decide),
    BitVec.toInt_neg_of_ne_intMin hmin, Int.neg_ediv_of_dvd hdvd, Int.mul_neg]

/-! ## The register's low three bits -/

/-- A register whose low three bits are zero is a multiple of 8. -/
theorem eight_dvd_toInt {r : Half} (h : r &&& 0x7 = 0) : 8 ∣ r.toInt := by
  have hlow : r.toNat % 8 = 0 :=
    (Nat.and_two_pow_sub_one_eq_mod r.toNat 3).symm.trans (congrArg BitVec.toNat h)
  have hval := r.toInt_eq_toNat_cond
  omega

/-- Clearing the low three bits is a shift right and back left. -/
theorem and_0xFFF8_eq (r : Half) : r &&& (0xFFF8 : Half) = r >>> 3 <<< 3 := by
  have hmask : (0xFFF8 : Half) = BitVec.allOnes 16 <<< 3 := by decide
  rw [hmask, BitVec.shiftLeft_ushiftRight]

/-- Clearing the low three bits does not change the value shifted right by 3. -/
theorem toInt_and_0xFFF8_div_eight (r : Half) : (r &&& 0xFFF8).toInt / 8 = r.toInt / 8 := by
  have hnat : (r &&& 0xFFF8).toNat = r.toNat / 8 * 8 := by
    have hlt := r.isLt
    rw [and_0xFFF8_eq, BitVec.toNat_shiftLeft, BitVec.toNat_ushiftRight, Nat.shiftRight_eq_div_pow, Nat.shiftLeft_eq]
    omega
  have hmasked := (r &&& 0xFFF8).toInt_eq_toNat_cond
  have hval := r.toInt_eq_toNat_cond
  omega

/-! ## CONVERT -/

@[simp] theorem exec_convert (reg : Half) (s : State) :
    exec (.convert reg) s =
      .next { s with res := (BitVec.ofInt 16 (convert s.cfg reg)).setWidth 32, done := true } :=
  rfl

end Sys2Proof.Machine

namespace Sys2Proof.Proofs
open Sys2Proof.Machine

/-- Settles O31: CONVERT writes `convert` of the register, which is the table's closed form. -/
theorem convertResult : Obligations.ConvertResult := by
  unfold Obligations.ConvertResult
  intro s reg
  rw [exec_convert, convert_eq_getD]

/-- Settles O32, by the sign of the register. -/
theorem convertRoundsHalfAwayFromZero : Obligations.ConvertRoundsHalfAwayFromZero := by
  unfold Obligations.ConvertRoundsHalfAwayFromZero
  exact fun _ reg hpos hneg => convert_eq_roundHalfAway hpos hneg reg

/-- Settles O33: the result lies between the extremes, well inside the `i16` range, so its pattern loses nothing. -/
theorem convertRange : Obligations.ConvertRange := by
  unfold Obligations.ConvertRange
  refine ⟨fun c reg hpos hneg => ?_, by decide, by decide⟩
  obtain ⟨hlo, hhi⟩ := convert_range hpos hneg reg
  exact ⟨wholePart_range reg, roundingEntry_le_nine hpos hneg reg, ⟨hlo, hhi⟩,
    BitVec.toInt_ofInt_eq_self (by decide) (by omega) (by omega)⟩

/-- Settles O34: the masked register has the same value after the shift by 3, which is all that `convert` reads. -/
theorem convertIgnoresLowThreeBits : Obligations.ConvertIgnoresLowThreeBits := by
  unfold Obligations.ConvertIgnoresLowThreeBits
  exact ⟨fun c reg => convert_congr c (toInt_and_0xFFF8_div_eight reg).symm, by decide, by decide⟩

/-- Settles O35: rounding half away from zero is monotonic and odd. -/
theorem convertIsMonotonicAndOdd : Obligations.ConvertIsMonotonicAndOdd := by
  unfold Obligations.ConvertIsMonotonicAndOdd
  exact ⟨fun _ _ h => convert_mono rfl rfl h, fun _ hlow hmin => convert_neg rfl rfl (eight_dvd_toInt hlow) hmin⟩

end Sys2Proof.Proofs
end

section
/-! The applicator on payloads put together by XOR (40_checksum.md R107), as the message encoder uses it. -/

namespace Sys2Proof.Machine

/-! ## The bits of a payload -/

/-- A payload of zero bytes has no set bit, past its end too. -/
theorem bitAt_replicate_zero (n p : Nat) : bitAt (List.replicate n 0) p = false := by
  obtain h | h := Nat.lt_or_ge (p / 8) n <;> simp [bitAt, h]

/-- The bits of the byte-wise XOR of two payloads of one length. -/
theorem bitAt_zipWith_xor {a b : List Byte} (hlen : a.length = b.length) (p : Nat) :
    bitAt (List.zipWith (· ^^^ ·) a b) p = (bitAt a p ^^ bitAt b p) := by
  obtain h | h := Nat.lt_or_ge (p / 8) a.length
  · have h' : p / 8 < b.length := hlen ▸ h
    simp [bitAt, List.getD_eq_getElem?_getD, h, h']
  · have h' : b.length ≤ p / 8 := hlen ▸ h
    simp [bitAt, h, h']

/-! ## The fold -/

/-- Where no bit is set, the fold reads nothing. -/
theorem hashFold_of_clear (rd : Nat → Except TblError Byte) {data : List Byte} (off : Nat) {ps : List Nat}
    (h : ∀ p ∈ ps, bitAt data p = false) (acc : Byte) : hashFold rd data off ps acc = .ok acc := by
  induction ps with
  | nil => rfl
  | cons p ps ih =>
    rw [hashFold_clear _ _ _ _ (h p (List.mem_cons_self ..)), ih fun q hq => h q (List.mem_cons_of_mem _ hq)]

/-- A fold that gives a checksum has read a byte at its first set bit. -/
theorem exists_read_of_hashFold_ok {rd : Nat → Except TblError Byte} {data : List Byte} {off p : Nat} {ps : List Nat}
    {acc x : Byte} (hb : bitAt data p = true) (h : hashFold rd data off (p :: ps) acc = .ok x) :
    ∃ v, rd (p + off) = .ok v ∧ hashFold rd data off ps (acc ^^^ v) = .ok x := by
  cases hr : rd (p + off) with
  | ok v => exact ⟨v, rfl, hashFold_set ps acc hb hr ▸ h⟩
  | error e =>
    rw [hashFold_stop ps acc hb hr] at h
    cases h

/-- The fold is linear: a bit set in both payloads folds the same byte in twice, and the two cancel. -/
theorem hashFold_xor {rd : Nat → Except TblError Byte} {a b c : List Byte} {off : Nat} {ps : List Nat}
    (hbits : ∀ p ∈ ps, bitAt c p = (bitAt a p ^^ bitAt b p)) {accA accB x y : Byte}
    (ha : hashFold rd a off ps accA = .ok x) (hb : hashFold rd b off ps accB = .ok y) :
    hashFold rd c off ps (accA ^^^ accB) = .ok (x ^^^ y) := by
  induction ps generalizing accA accB with
  | nil =>
    cases ha
    cases hb
    rfl
  | cons p ps ih =>
    have hc := hbits p (List.mem_cons_self ..)
    have ih := @ih fun q hq => hbits q (List.mem_cons_of_mem _ hq)
    cases hpa : bitAt a p <;> cases hpb : bitAt b p <;> rw [hpa, hpb] at hc
    case false.false =>
      rw [hashFold_clear _ _ _ _ hpa] at ha
      rw [hashFold_clear _ _ _ _ hpb] at hb
      rw [hashFold_clear _ _ _ _ hc, ih ha hb]
    case false.true =>
      rw [hashFold_clear _ _ _ _ hpa] at ha
      obtain ⟨v, hv, hb⟩ := exists_read_of_hashFold_ok hpb hb
      rw [hashFold_set _ _ hc hv, BitVec.xor_assoc, ih ha hb]
    case true.false =>
      obtain ⟨v, hv, ha⟩ := exists_read_of_hashFold_ok hpa ha
      rw [hashFold_clear _ _ _ _ hpb] at hb
      rw [hashFold_set _ _ hc hv, BitVec.xor_assoc, BitVec.xor_comm accB, ← BitVec.xor_assoc, ih ha hb]
    case true.true =>
      obtain ⟨v, hv, ha⟩ := exists_read_of_hashFold_ok hpa ha
      obtain ⟨w, hw, hb⟩ := exists_read_of_hashFold_ok hpb hb
      obtain rfl : v = w := Except.ok.inj (hv.symm.trans hw)
      have hcancel : accA ^^^ v ^^^ (accB ^^^ v) = accA ^^^ accB := by
        rw [BitVec.xor_comm accB, ← BitVec.xor_assoc, BitVec.xor_assoc accA, BitVec.xor_self, BitVec.xor_zero]
      rw [hashFold_clear _ _ _ _ hc, ← hcancel, ih ha hb]

/-! ## The pure function -/

/-- R107 item 1. -/
theorem hash_replicate_zero (n : Nat) (T : List Byte) (off : Nat) : hash (List.replicate n 0) T off = .ok 0 :=
  hashFold_of_clear _ _ (fun p _ => bitAt_replicate_zero n p) 0

/-- R107 item 2. -/
theorem hash_zipWith_xor {a b T : List Byte} {off : Nat} {x y : Byte} (hlen : a.length = b.length)
    (ha : hash a T off = .ok x) (hb : hash b T off = .ok y) :
    hash (List.zipWith (· ^^^ ·) a b) T off = .ok (x ^^^ y) := by
  have hpos : bitPositions (List.zipWith (· ^^^ ·) a b) = bitPositions a := by
    simp [bitPositions, ← hlen]
  have hposB : bitPositions b = bitPositions a := by rw [bitPositions, ← hlen, bitPositions]
  rw [hash, hposB] at hb
  rw [hash, hpos]
  exact hashFold_xor (accA := 0) (accB := 0) (fun p _ => bitAt_zipWith_xor hlen p) ha hb

end Sys2Proof.Machine
end

section
/-! The message encoder: the frame's bytes, `generate` and GENERATE (42_message.md R140 to R147). -/

namespace Sys2Proof.Machine

/-! ## The frame's body (R140) -/

/-- The status nibble is `batteryOk` over three zeros (R72). -/
theorem statusNibble_eq (ok : Bool) : statusNibble ok = BitVec.ofBool ok ++ 0b000#3 := by
  cases ok <;> decide

theorem frameBody_eq (id : Byte) (ok : Bool) (t : Half) :
    frameBody id ok t = [id, BitVec.ofBool ok ++ 0b000#3 ++ t.extractLsb' 8 4, t.extractLsb' 0 8] := by
  rw [frameBody, statusNibble_eq]

/-- Three payload bytes are read wholly inside a table of at least `24 + off` entries (R141). -/
theorem indicesBelow_frameBody (id : Byte) (ok : Bool) (t : Half) {off size : Nat} (h : 24 + off ≤ size) :
    Safety.IndicesBelow (frameBody id ok t) off size := by
  intro p hp _
  have hp : p < 24 := hp
  omega

/-- Bits 6..4 of byte 1 are 0, whatever the status nibble stands over (R146 c). -/
theorem statusNibble_append_and_0x70 (ok : Bool) (x : BitVec 4) : (statusNibble ok ++ x) &&& (0x70 : Byte) = 0 := by
  revert ok x
  decide

/-- With the battery low, bits 7..4 of byte 1 are 0 (R143). -/
theorem statusNibble_false_append_and_0xF0 (x : BitVec 4) : (statusNibble false ++ x) &&& (0xF0 : Byte) = 0 := by
  revert x
  decide

/-- The battery bit is bit 7 of byte 1 (R143). -/
theorem statusNibble_true_append (x : BitVec 4) :
    (statusNibble true ++ x : Byte) = (statusNibble false ++ x) ^^^ 0x80 := by
  revert x
  decide

theorem statusNibble_append_eq_zero {ok : Bool} {x : BitVec 4} (h : (statusNibble ok ++ x : Byte) = 0) :
    ok = false ∧ x = 0 := by
  revert ok x
  decide

/-- The twelve bits of the temperature that a frame carries (R144). -/
theorem extract_temperature (t : Half) : t.extractLsb' 0 12 = t.extractLsb' 8 4 ++ t.extractLsb' 0 8 :=
  (BitVec.extractLsb'_append_extractLsb'_eq_extractLsb' (start₂ := 8) (len₂ := 4) (start₁ := 0) (len₁ := 8)
    rfl).symm

/-- The body with the battery good is the body with the battery low, XORed with the one set bit (R143). -/
theorem frameBody_true (id : Byte) (t : Half) :
    frameBody id true t = List.zipWith (· ^^^ ·) (frameBody id false t) [0x00, 0x80, 0x00] := by
  simp [frameBody, statusNibble_true_append]

/-! ## The pure function (R140) -/

theorem generate_of_hash {c : Config} {id : Byte} {ok : Bool} {t : Half} {T : List Byte} {chk : Byte}
    (h : hash (frameBody id ok t) T c.chkOffset = .ok chk) :
    generate c id ok t T = .ok (frameBody id ok t ++ [chk]) := by
  simp [generate, h]

/-- A frame is the body and its checksum; where the checksum has no value there is no frame. -/
theorem generate_eq_ok_iff {c : Config} {id : Byte} {ok : Bool} {t : Half} {T f : List Byte} :
    generate c id ok t T = .ok f ↔
      ∃ chk, hash (frameBody id ok t) T c.chkOffset = .ok chk ∧ f = frameBody id ok t ++ [chk] := by
  cases h : hash (frameBody id ok t) T c.chkOffset <;> simp [generate, h, eq_comm]

/-- The battery bit selects entry 12 of the table: `TBL[12] = 0xD5` (R143). -/
theorem hash_battery_bit : hash [0x00, 0x80, 0x00] (Safety.builtTable defaultConfig) 4 = .ok 0xD5 := by decide

/-- Setting the battery bit flips the checksum by `0xD5`: the applicator is linear (R107). -/
theorem hash_frameBody_true {id : Byte} {t : Half} {chk : Byte}
    (h : hash (frameBody id false t) (Safety.builtTable defaultConfig) 4 = .ok chk) :
    hash (frameBody id true t) (Safety.builtTable defaultConfig) 4 = .ok (chk ^^^ 0xD5) := by
  rw [frameBody_true]
  exact hash_zipWith_xor rfl h hash_battery_bit

/-! ## GENERATE (R141) -/

/-- Before BUILD, GENERATE takes E_NOTABLE whatever its operands (R55, R185). -/
theorem exec_generate_of_not_tableValid {s : State} (hv : s.tableValid = false) (id : Byte) (ok : Bool) (t : Half) :
    exec (.generate id ok t) s = .next (raiseFault .noTable s) :=
  if_neg (by rw [accept_tableValid, hv]; decide)

/-- With the table built, GENERATE is the applicator over the body, followed by the write of `acc` and `res`. -/
theorem exec_generate_of_tableValid {s : State} (hv : s.tableValid = true) (id : Byte) (ok : Bool) (t : Half) :
    exec (.generate id ok t) s =
      withChecksum (accept s) (frameBody id ok t) s.cfg.chkOffset fun b =>
        { accept s with acc := b, res := packFrame (frameBody id ok t) b } :=
  if_pos hv

/-- The packed frame, field by field from bit 31 down (R141). -/
theorem packFrame_frameBody (id : Byte) (ok : Bool) (t : Half) (chk : Byte) :
    packFrame (frameBody id ok t) chk =
      id ++ BitVec.ofBool ok ++ 0b000#3 ++ t.extractLsb' 8 4 ++ t.extractLsb' 0 8 ++ chk := by
  rw [frameBody_eq]
  change id ++ (BitVec.ofBool ok ++ 0b000#3 ++ t.extractLsb' 8 4) ++ t.extractLsb' 0 8 ++ chk = _
  rw [BitVec.append_assoc', BitVec.append_assoc' (x₁ := id)]
  rfl

end Sys2Proof.Machine

namespace Sys2Proof.Proofs
open Sys2Proof.Machine

/-- Settles O36: the three bytes of the body stay inside the table, so a built table always gives the checksum, and the
packed frame is its fields side by side. -/
theorem generateResultAndFaults : Obligations.GenerateResultAndFaults := by
  unfold Obligations.GenerateResultAndFaults
  intro s T id ok t
  refine ⟨fun hv => exec_generate_of_not_tableValid hv id ok t, fun hv hT hsize chk hchk => ?_⟩
  rw [← frameBody_eq] at hchk
  have hin : Safety.IndicesBelow (frameBody id ok t) s.cfg.chkOffset T.length :=
    indicesBelow_frameBody id ok t (hT.1 ▸ hsize)
  have hsum : hashTbl (accept s) (frameBody id ok t) s.cfg.chkOffset = .ok chk := by
    rw [hashTbl_of_tableHolds (s := accept s) hT, hash_of_indicesBelow hin, hchk]
  rw [exec_generate_of_tableValid hv, withChecksum_of_ok hsum, packFrame_frameBody]
  rfl

/-- Settles O39: (a) to (c) from the form of a frame; (d) since the hash of zeros is 0 and each
operand stands in the body. -/
theorem frameShape : Obligations.FrameShape := by
  unfold Obligations.FrameShape
  refine ⟨fun c id ok t T f h => ?_, fun c T => generate_of_hash (hash_replicate_zero 3 T c.chkOffset),
    fun c id ok t T h => ?_⟩
  · obtain ⟨chk, hchk, rfl⟩ := generate_eq_ok_iff.1 h
    exact ⟨_, _, _, chk, rfl, hchk, statusNibble_append_and_0x70 ok _⟩
  · obtain ⟨chk, -, hf⟩ := generate_eq_ok_iff.1 h
    simp only [frameBody, List.cons_append, List.nil_append, List.cons.injEq] at hf
    obtain ⟨hid, hstatus, hlow, -⟩ := hf
    obtain ⟨hok, hhigh⟩ := statusNibble_append_eq_zero hstatus.symm
    refine ⟨hid.symm, hok, ?_⟩
    rw [extract_temperature, hhigh, ← hlow]
    rfl

/-- Settles O38: the two bodies differ in one bit, and the checksum's flip is that bit's table entry. -/
theorem batteryBitChangesTwoBytes : Obligations.BatteryBitChangesTwoBytes := by
  unfold Obligations.BatteryBitChangesTwoBytes
  intro id t
  have hin : Safety.IndicesBelow (frameBody id false t) 4 (Safety.builtTable defaultConfig).length :=
    indicesBelow_frameBody id false t (by decide)
  have hchk := hash_of_indicesBelow hin
  refine ⟨statusNibble false ++ t.extractLsb' 8 4, _, statusNibble_false_append_and_0xF0 _, generate_of_hash hchk, ?_⟩
  rw [← statusNibble_true_append]
  exact generate_of_hash (hash_frameBody_true hchk)

/-- Settles O37: the checksum of the frame with the battery low by evaluation, the other one by
flipping the battery bit. -/
theorem documentFrames : Obligations.DocumentFrames := by
  unfold Obligations.DocumentFrames
  have hlow : hash (frameBody 0xE6 false 310) (Safety.builtTable defaultConfig) 4 = .ok 0xC6 := by decide
  have hgood : hash (frameBody 0xE6 true 310) (Safety.builtTable defaultConfig) 4 = .ok 0x13 := hash_frameBody_true hlow
  exact ⟨generate_of_hash hgood, generate_of_hash hlow, hgood⟩

end Sys2Proof.Proofs
end

section
/-! The transmitter's operations: TRANSMIT at its accepting edge, and each edge of a running transmission (43_ook_tx.md R157 to
R161). -/

namespace Sys2Proof.Machine

/-! ## TRANSMIT -/

@[simp] theorem exec_transmit (b0 b1 b2 b3 : Byte) (s : State) :
    exec (.transmit b0 b1 b2 b3) s =
      .next { accept s with
        txFrame := b0 ++ b1 ++ b2 ++ b3
        txK := 0
        txPhase := .on
        txTimer := onTicks s.cfg .start
        ookOut := true
        busy := true } := rfl

/-- No other meaning touches an idle transmitter (R150, R161). -/
theorem exec_keeps_idle_transmitter {i : Instr} {s t : State} (h : exec i s = .next t) (hp : s.txPhase = .idle)
    (hi : ∀ b0 b1 b2 b3, i ≠ .transmit b0 b1 b2 b3) :
    t.busy = s.busy ∧ t.txPhase = s.txPhase ∧ t.txFrame = s.txFrame ∧ t.txK = s.txK ∧ t.txTimer = s.txTimer ∧
      t.ookOut = s.ookOut := by
  have pulse : ∀ y, pulseEdge y s = .next t → t = s := fun y h => by simpa [pulseEdge, hp] using h.symm
  cases i with
  | build => rcases execBuild_next h with ⟨-, rfl⟩ | ⟨-, rfl⟩ <;> simp
  | hash data off => rcases execHash_next h with ⟨-, rfl⟩ | ⟨-, b, -, rfl⟩ | ⟨-, -, rfl⟩ <;> simp
  | convert reg => cases h; simp
  | generate id ok temp => rcases execGenerate_next h with ⟨-, rfl⟩ | ⟨-, b, -, rfl⟩ | ⟨-, -, rfl⟩ <;> simp
  | transmit b0 b1 b2 b3 => exact absurd rfl (hi b0 b1 b2 b3)
  | reserved5 => cases h; simp
  | reserved6 => cases h; simp
  | reserved7 => cases h; simp
  | zero => simp [pulse .zero h]
  | one => simp [pulse .one h]
  | start => simp [pulse .start h]
  | stop => simp [pulse .stop h]

/-! ## One edge of a pulse -/

/-- R158. -/
theorem pulseEdge_of_one_lt {s : State} (hp : s.txPhase ≠ .idle) (ht : 1 < s.txTimer) (y : Symbol) :
    pulseEdge y s = .next (countDown s) := by
  have h0 : s.txTimer ≠ 0 := by omega
  have h1 : s.txTimer ≠ 1 := by omega
  cases hph : s.txPhase with
  | idle => exact absurd hph hp
  | on => simp [pulseEdge, hph, h0, h1]
  | off => simp [pulseEdge, hph, h0, h1]

/-- R159. -/
theorem pulseEdge_end_of_on {s : State} (hp : s.txPhase = .on) (ht : s.txTimer = 1) (y : Symbol) :
    pulseEdge y s = .next (beginOff y s) := by
  simp [pulseEdge, hp, ht]

/-- R160. -/
theorem pulseEdge_next_symbol {s : State} (hp : s.txPhase = .off) (ht : s.txTimer = 1) {k : Fin 34}
    (hk : k.val = s.txK.val + 1) (y : Symbol) : pulseEdge y s = .next (beginSymbol k s) := by
  have hlt : s.txK.val < 33 := by have := k.isLt; omega
  have hk : (⟨s.txK.val + 1, by omega⟩ : Fin 34) = k := Fin.ext hk.symm
  simp [pulseEdge, hp, ht, nextSymbol, hlt, hk]

/-- R161. -/
theorem pulseEdge_end_of_stop {s : State} (hp : s.txPhase = .off) (ht : s.txTimer = 1) (hk : s.txK.val = 33)
    (y : Symbol) : pulseEdge y s = .next (endTransmission s) := by
  simp [pulseEdge, hp, ht, nextSymbol, hk]

/-- While a transmission runs, an edge without reset is one of the current symbol's pulse, whatever the host presents. -/
theorem step_of_running {s : State} (hr : (portIn s).rst = false) (hp : s.txPhase ≠ .idle) :
    step s = pulseEdge (symbolAt s.txFrame s.txK) (afterEdge s) := by
  simp [step, hr, fetchWord_symbol hr hp]

end Sys2Proof.Machine

namespace Sys2Proof.Proofs
open Sys2Proof.Machine

/-- Settles O41: the meaning's updates, with the Start pulse's time in ticks written out. -/
theorem transmitLatchesTheFrameAndStarts : Obligations.TransmitLatchesTheFrameAndStarts := by
  unfold Obligations.TransmitLatchesTheFrameAndStarts
  exact fun s b0 b1 b2 b3 => exec_transmit b0 b1 b2 b3 s

/-- Settles O44: the step is one edge of the current symbol's pulse, which follows R158 to R161. -/
theorem sequencerTransitions : Obligations.SequencerTransitions := by
  unfold Obligations.SequencerTransitions
  intro s hr hp
  rw [step_of_running hr hp]
  exact ⟨fun ht => pulseEdge_of_one_lt (s := afterEdge s) hp ht _,
    fun ht hon => pulseEdge_end_of_on (s := afterEdge s) hon ht _,
    fun ht hoff k hk => pulseEdge_next_symbol (s := afterEdge s) hoff ht hk _,
    fun ht hoff hk => pulseEdge_end_of_stop (s := afterEdge s) hoff ht hk _⟩

end Sys2Proof.Proofs
end

section
/-! The symbols of a frame and their times (43_ook_tx.md R153, R155). -/

namespace Sys2Proof.Machine

/-! ## The symbol sequence -/

@[simp] theorem symbolAt_zero (f : Frame) : symbolAt f 0 = .start := rfl

/-- Bit position `p` is symbol `p + 1`. -/
theorem symbolAt_data_bit (f : Frame) {p : Nat} (hp : p < 32) :
    symbolAt f (p + 1) = if frameBit f p then .one else .zero := by
  simp [symbolAt, Nat.succ_le_of_lt hp]

@[simp] theorem symbolAt_stop (f : Frame) : symbolAt f 33 = .stop := rfl

@[simp] theorem symbols_length (f : Frame) : (symbols f).length = 34 := by
  simp [symbols]

theorem getElem?_symbols (f : Frame) {k : Nat} (hk : k < 34) : (symbols f)[k]? = some (symbolAt f k) := by
  simp [symbols, hk]

/-- R153's two readings of bit position `p`: in the bytes of the frame, and in the packed frame. -/
theorem bitAt_frameBytes (f : Frame) {p : Nat} (hp : p < 32) : bitAt (frameBytes f) p = frameBit f p := by
  have hbyte : (frameBytes f).getD (p / 8) 0 = f.extractLsb' (24 - 8 * (p / 8)) 8 := by
    have hq : p / 8 < 4 := by omega
    interval_cases p / 8 <;> rfl
  have hin : 7 - p % 8 < 8 := by omega
  have hpos : 24 - 8 * (p / 8) + (7 - p % 8) = 31 - p := by omega
  rw [bitAt, hbyte, BitVec.getLsbD_extractLsb', decide_eq_true hin, Bool.true_and, hpos, frameBit]

/-! ## The times of this hardware -/

/-- R155: data bit `p` starts here, and at `p = 32` the Stop symbol. -/
theorem symbolStart_data_bit (f : Frame) {p : Nat} (hp : p ≤ 32) :
    symbolStart defaultConfig f (p + 1) = 9500 + 2500 * p + 2000 * (List.range p).countP (frameBit f) := by
  induction p with
  | zero => simp [symbolStart, onUs, offUs, defaultConfig]
  | succ p ih =>
    rw [symbolStart, ih (by omega), symbolAt_data_bit f (by omega), List.range_succ, List.countP_append,
      List.countP_singleton]
    cases frameBit f p with
    | false =>
      simp [onUs, offUs, defaultConfig]
      omega
    | true =>
      simp [onUs, offUs, defaultConfig]
      omega

/-- R155: 34 symbols, the set bits 2000 microseconds longer than the clear ones. -/
theorem totalUs_defaultConfig (f : Frame) : totalUs defaultConfig f = 90500 + 2000 * popcount f := by
  rw [totalUs, symbolStart, symbolStart_data_bit f le_rfl, symbolAt_stop, popcount]
  simp [onUs, offUs, defaultConfig]
  omega

theorem popcount_le (f : Frame) : popcount f ≤ 32 := by
  simpa [popcount] using List.countP_le_length (p := frameBit f) (l := List.range 32)

end Sys2Proof.Machine

namespace Sys2Proof.Proofs
open Sys2Proof.Machine

/-- Settles O45: symbol `k` of the sequence is `symbolAt`, whose data bits are those of the frame's bytes. -/
theorem symbolsOfAFrame : Obligations.SymbolsOfAFrame := by
  unfold Obligations.SymbolsOfAFrame
  intro f
  refine ⟨symbols_length f, getElem?_symbols f (by decide), getElem?_symbols f (by decide), fun k hk1 hk32 => ?_⟩
  obtain ⟨p, rfl⟩ := Nat.exists_eq_add_of_le' hk1
  rw [getElem?_symbols f (by omega), symbolAt_data_bit f (by omega), Nat.add_sub_cancel, bitAt_frameBytes f (by omega)]

/-- Settles O50: every time is an affine function of a count of set bits, and a frame has from 0 to 32 of them. -/
theorem frameDuration : Obligations.FrameDuration := by
  unfold Obligations.FrameDuration
  have hzeros : popcount 0x00000000 = 0 := by decide
  have hones : popcount 0xFFFFFFFF = 32 := by decide
  refine ⟨totalUs_defaultConfig, fun f p hp => symbolStart_data_bit f hp.le, ?_, ?_, fun f => ?_⟩
  · rw [totalUs_defaultConfig, hzeros]
  · rw [totalUs_defaultConfig, hones]
  · have hle := popcount_le f
    rw [totalUs_defaultConfig]
    omega

end Sys2Proof.Proofs
end

section
/-! The sequencer against the waveform (43_ook_tx.md R154, R169): where a transmission stands at each tick, its level there,
and the run from the accepting edge to the end. -/

namespace Sys2Proof.Machine

/-! ## The waveform in ticks -/

/-- `t_k` of R154 in ticks (R156). -/
def startTicks (c : Config) (f : Frame) (k : Nat) : Nat := ticks c (symbolStart c f k)

@[simp] theorem startTicks_zero (c : Config) (f : Frame) : startTicks c f 0 = 0 := Nat.zero_mul _

theorem startTicks_succ (c : Config) (f : Frame) (k : Nat) :
    startTicks c f (k + 1) = startTicks c f k + onTicks c (symbolAt f k) + offTicks c (symbolAt f k) := by
  simp only [startTicks, onTicks, offTicks, ticks, symbolStart, Nat.add_mul]

theorem startTicks_mono (c : Config) (f : Frame) : Monotone (startTicks c f) :=
  monotone_nat_of_le_succ fun k => by rw [startTicks_succ]; omega

theorem totalUs_mul_ticksPerUs (c : Config) (f : Frame) : totalUs c f * c.ticksPerUs = startTicks c f 34 := rfl

/-- The level of R154 at the microsecond in which tick `u` falls. -/
theorem level_div_ticksPerUs {c : Config} (hn : 1 ≤ c.ticksPerUs) (f : Frame) (u : Nat) :
    level c f (u / c.ticksPerUs) = true ↔
      ∃ k < 34, startTicks c f k ≤ u ∧ u < startTicks c f k + onTicks c (symbolAt f k) := by
  simp [level, startTicks, onTicks, ticks, Nat.le_div_iff_mul_le hn, Nat.div_lt_iff_lt_mul hn, Nat.add_mul]

theorem one_le_ticksPerUs {c : Config} (hc : c.Legal) : 1 ≤ c.ticksPerUs := by
  obtain ⟨-, -, -, -, hn⟩ := hc
  exact hn

/-- No phase of a legal record is empty (R151, R6). -/
theorem one_le_phaseTicks {c : Config} (hc : c.Legal) (y : Symbol) : 1 ≤ onTicks c y ∧ 1 ≤ offTicks c y := by
  obtain ⟨-, -, ⟨hstartOn, hstartOff, hzeroOn, hzeroOff⟩, ⟨honeOn, honeOff, hstopOn, hstopOff⟩, hn⟩ := hc
  have hon : 1 ≤ onUs c y := by cases y <;> assumption
  have hoff : 1 ≤ offUs c y := by cases y <;> assumption
  exact ⟨Nat.mul_pos hon hn, Nat.mul_pos hoff hn⟩

/-! ## Where a transmission stands -/

/-- The symbol being sent, whether its on-duration runs, and the ticks left of that phase. -/
structure TxPos where
  k : Fin 34
  high : Bool
  timer : Nat

/-- The first tick of the Start pulse. -/
def TxPos.first (c : Config) : TxPos := ⟨0, true, onTicks c .start⟩

/-- The positions that the waveform of `f` allows `u` ticks after its start: `u` lies in a phase of the symbol, and the timer
holds what is left of it. -/
inductive TxPos.At (c : Config) (f : Frame) (u : Nat) : TxPos → Prop where
  | on {k : Fin 34} {timer : Nat} (ht : 1 ≤ timer) (hlo : startTicks c f k ≤ u)
      (hhi : u + timer = startTicks c f k + onTicks c (symbolAt f k)) : TxPos.At c f u ⟨k, true, timer⟩
  | off {k : Fin 34} {timer : Nat} (ht : 1 ≤ timer) (hlo : startTicks c f k + onTicks c (symbolAt f k) ≤ u)
      (hhi : u + timer = startTicks c f (k + 1)) : TxPos.At c f u ⟨k, false, timer⟩

theorem TxPos.at_first {c : Config} (hc : c.Legal) (f : Frame) : (TxPos.first c).At c f 0 :=
  .on (k := 0) (one_le_phaseTicks hc .start).1 (startTicks_zero c f).le (by simp)

/-- A position lies within its symbol's pulse. -/
theorem TxPos.At.within {c : Config} {f : Frame} {u : Nat} {p : TxPos} (h : p.At c f u) :
    startTicks c f p.k ≤ u ∧ u < startTicks c f (p.k + 1) := by
  have hsucc := startTicks_succ c f p.k
  cases h with
  | on ht hlo hhi => dsimp only at hsucc ⊢; omega
  | off ht hlo hhi => dsimp only at hsucc ⊢; omega

theorem TxPos.At.lt_total {c : Config} {f : Frame} {u : Nat} {p : TxPos} (h : p.At c f u) : u < startTicks c f 34 :=
  h.within.2.trans_le (startTicks_mono c f (Nat.succ_le_of_lt p.k.isLt))

/-- The waveform is high exactly where the position is: the pulses of different symbols do not overlap. -/
theorem TxPos.At.level_eq {c : Config} {f : Frame} {u : Nat} {p : TxPos} (hn : 1 ≤ c.ticksPerUs) (h : p.At c f u) :
    level c f (u / c.ticksPerUs) = p.high := by
  obtain ⟨hfrom, hto⟩ := h.within
  cases h with
  | @on k timer ht hlo hhi => exact (level_div_ticksPerUs hn f u).2 ⟨k, k.isLt, hlo, by omega⟩
  | @off k timer ht hlo hhi =>
    refine Bool.eq_false_iff.2 fun hlevel => ?_
    obtain ⟨j, -, hj, hju⟩ := (level_div_ticksPerUs hn f u).1 hlevel
    have hsucc := startTicks_succ c f j
    obtain hjk | rfl | hkj := Nat.lt_trichotomy j k
    · have hle : startTicks c f (j + 1) ≤ startTicks c f k := startTicks_mono c f hjk
      dsimp only at hfrom
      omega
    · omega
    · have hle : startTicks c f (k + 1) ≤ startTicks c f j := startTicks_mono c f hkj
      dsimp only at hto
      omega

/-! ## The block while it sends -/

/-- The block `s` while it sends frame `f`, at a position and with the host's further drive: nothing else of `s` differs. -/
def sending (s : State) (f : Frame) (p : TxPos) (drive : List PortIn) : State :=
  { s with
    busy := true
    done := false
    txFrame := f
    txPhase := if p.high then .on else .off
    txK := p.k
    txTimer := p.timer
    ookOut := p.high
    inputs := drive }

/-- A block that is ready holds no fault (R36). -/
theorem fault_of_cmdReady {s : State} (hc : cmdReady s = true) : s.fault = 0 := by
  simp only [cmdReady, Bool.and_eq_true, beq_iff_eq] at hc
  exact hc.2

/-- The edge that accepts TRANSMIT begins the sending (R157). -/
theorem step_of_transmit {s : State} {b0 b1 b2 b3 : Byte} (hr : (portIn s).rst = false) (hp : s.txPhase = .idle)
    (hv : (portIn s).cmdValid = true) (hc : cmdReady s = true)
    (hd : decodeCommand (portIn s).cmd = .transmit b0 b1 b2 b3) :
    step s = .next (sending s (b0 ++ b1 ++ b2 ++ b3) (TxPos.first s.cfg) s.inputs.tail) := by
  rw [step_of_command hr hp hv hc, hd, exec_transmit]
  rfl

section
variable {s : State} {f : Frame} {p : TxPos} {k : Fin 34} {high : Bool} {timer : Nat} {drive : List PortIn}

theorem sending_txPhase_ne_idle : (sending s f p drive).txPhase ≠ .idle := by
  cases hp : p.high with
  | false => simp [sending, hp]
  | true => simp [sending, hp]

theorem step_of_sending (hr : (portIn (sending s f p drive)).rst = false) :
    step (sending s f p drive) = pulseEdge (symbolAt f p.k) (sending s f p drive.tail) :=
  step_of_running hr sending_txPhase_ne_idle

/-- R158 on positions. -/
theorem step_sending_countDown (hr : (portIn (sending s f ⟨k, high, timer⟩ drive)).rst = false) (ht : 1 < timer) :
    step (sending s f ⟨k, high, timer⟩ drive) = .next (sending s f ⟨k, high, timer - 1⟩ drive.tail) :=
  (step_of_sending hr).trans
    (pulseEdge_of_one_lt (s := sending s f ⟨k, high, timer⟩ drive.tail) sending_txPhase_ne_idle ht _)

/-- R159 on positions. -/
theorem step_sending_beginOff (hr : (portIn (sending s f ⟨k, true, 1⟩ drive)).rst = false) :
    step (sending s f ⟨k, true, 1⟩ drive) =
      .next (sending s f ⟨k, false, offTicks s.cfg (symbolAt f k)⟩ drive.tail) :=
  (step_of_sending hr).trans (pulseEdge_end_of_on rfl rfl _)

/-- R160 on positions. -/
theorem step_sending_beginSymbol (hr : (portIn (sending s f ⟨k, false, 1⟩ drive)).rst = false) {j : Fin 34}
    (hj : j.val = k.val + 1) :
    step (sending s f ⟨k, false, 1⟩ drive) =
      .next (sending s f ⟨j, true, onTicks s.cfg (symbolAt f j)⟩ drive.tail) :=
  (step_of_sending hr).trans (pulseEdge_next_symbol rfl rfl hj _)

/-- R161 on positions. -/
theorem step_sending_end (hr : (portIn (sending s f ⟨k, false, 1⟩ drive)).rst = false) (hk : k.val = 33) :
    step (sending s f ⟨k, false, 1⟩ drive) = .next (endTransmission (sending s f ⟨k, false, 1⟩ drive.tail)) :=
  (step_of_sending hr).trans (pulseEdge_end_of_stop rfl rfl hk _)

end

/-- Each edge leads to a position of the next tick, but the last one, in Stop's off-duration, ends the transmission. -/
theorem step_sending {s : State} {f : Frame} {p : TxPos} {drive : List PortIn} {u : Nat} (hc : s.cfg.Legal)
    (hr : (portIn (sending s f p drive)).rst = false) (h : p.At s.cfg f u) :
    (∃ q : TxPos, q.At s.cfg f (u + 1) ∧ step (sending s f p drive) = .next (sending s f q drive.tail)) ∨
    (u + 1 = startTicks s.cfg f 34 ∧ p.high = false ∧
      step (sending s f p drive) = .next (endTransmission (sending s f p drive.tail))) := by
  cases h with
  | @on k timer ht hlo hhi =>
    obtain rfl | hmore := Nat.eq_or_lt_of_le ht
    · have hsucc := startTicks_succ s.cfg f k
      exact .inl ⟨_, .off (one_le_phaseTicks hc _).2 hhi.ge (by omega), step_sending_beginOff hr⟩
    · exact .inl ⟨_, .on (by omega) (by omega) (by omega), step_sending_countDown hr hmore⟩
  | @off k timer ht hlo hhi =>
    obtain rfl | hmore := Nat.eq_or_lt_of_le ht
    · obtain hstop | hk := Nat.eq_or_lt_of_le (Nat.le_of_lt_succ k.isLt)
      · exact .inr ⟨by rw [hhi, hstop], rfl, step_sending_end hr hstop⟩
      · obtain ⟨j, hj⟩ : ∃ j : Fin 34, j.val = k.val + 1 := ⟨⟨k.val + 1, by omega⟩, rfl⟩
        rw [← hj] at hhi
        exact .inl ⟨_, .on (one_le_phaseTicks hc _).1 hhi.ge (by rw [hhi]), step_sending_beginSymbol hr hj⟩
    · exact .inl ⟨_, .off (by omega) (by omega) (by omega), step_sending_countDown hr hmore⟩

end Sys2Proof.Machine

namespace Sys2Proof.Safety
open Sys2Proof.Machine

/-! ## The run of a transmission -/

/-- One edge more at the end of a run. -/
theorem edges_succ_last {s t : State} {n : Nat} (h : edges n s = .next t) : edges (n + 1) s = step t := by
  rw [edges_add 1 h]
  cases hs : step t <;> simp [edges, hs]

/-- After `n` edges without reset the next one, too, has none. -/
theorem rst_eq_false_of_noResetFor {s t : State} {n : Nat} (h : NoResetFor (n + 1) s)
    (ht : t.inputs = s.inputs.drop n) : (portIn t).rst = false :=
  noResetFor_head (noResetFor_drop h ht)

/-- Below the frame's duration the block is at a position of the waveform, whatever the host presents. -/
theorem edges_sending {s : State} {f : Frame} {drive : List PortIn} (hc : s.cfg.Legal) {u : Nat}
    (hu : u < startTicks s.cfg f 34) (hr : NoResetFor u (sending s f (TxPos.first s.cfg) drive)) :
    ∃ q : TxPos, q.At s.cfg f u ∧
      edges u (sending s f (TxPos.first s.cfg) drive) = .next (sending s f q (drive.drop u)) := by
  induction u with
  | zero => exact ⟨_, TxPos.at_first hc f, rfl⟩
  | succ u ih =>
    obtain ⟨p, hp, hrun⟩ := ih (by omega) (noResetFor_mono hr (by omega))
    rw [edges_succ_last hrun, ← List.tail_drop]
    obtain ⟨q, hq, hstep⟩ | ⟨hend, -⟩ := step_sending hc (rst_eq_false_of_noResetFor hr rfl) hp
    · exact ⟨q, hq, hstep⟩
    · omega

/-- At the frame's duration the transmission ends, from a position with the line low. -/
theorem edges_sending_to_end {s : State} {f : Frame} {drive : List PortIn} (hc : s.cfg.Legal)
    (hr : NoResetFor (startTicks s.cfg f 34) (sending s f (TxPos.first s.cfg) drive)) :
    ∃ (p : TxPos) (rest : List PortIn), p.high = false ∧
      edges (startTicks s.cfg f 34) (sending s f (TxPos.first s.cfg) drive) =
        .next (endTransmission (sending s f p rest)) := by
  obtain ⟨u, hu⟩ := Nat.exists_eq_add_one.2 (TxPos.at_first hc f).lt_total
  rw [hu] at hr ⊢
  obtain ⟨p, hp, hrun⟩ := edges_sending hc (hu ▸ Nat.lt_succ_self u) (noResetFor_mono hr (Nat.le_succ u))
  rw [edges_succ_last hrun]
  obtain ⟨q, hq, -⟩ | ⟨-, hlow, hstep⟩ := step_sending hc (rst_eq_false_of_noResetFor hr rfl) hp
  · exact absurd hq.lt_total (by omega)
  · exact ⟨p, _, hlow, hstep⟩

/-! ## The idle line -/

/-- Only an accepted TRANSMIT raises the line of an idle transmitter (R169). -/
theorem step_keeps_idle_line {s t : State} (hp : s.txPhase = .idle) (hl : s.ookOut = false) (hb : s.busy = false)
    (h : step s = .next t)
    (hw : ∀ w b0 b1 b2 b3, fetchWord s = some (.cmd w) → decodeCommand w ≠ .transmit b0 b1 b2 b3) :
    t.txPhase = .idle ∧ t.ookOut = false ∧ t.busy = false := by
  obtain ⟨-, rfl⟩ | ⟨-, -, rfl⟩ | ⟨-, hrun, -⟩ | ⟨hr, -, hv, hc, hexec⟩ := step_next h
  · exact ⟨resetBlock_txPhase _, resetBlock_ookOut _, resetBlock_busy _⟩
  · exact ⟨hp, hl, hb⟩
  · exact absurd hp hrun
  · have hi := fun b0 b1 b2 b3 => hw _ b0 b1 b2 b3 (fetchWord_command hr hp hv hc)
    obtain ⟨hbusy, hphase, -, -, -, hline⟩ := exec_keeps_idle_transmitter hexec hp hi
    exact ⟨hphase.trans hp, hline.trans hl, hbusy.trans hb⟩

end Sys2Proof.Safety

namespace Sys2Proof.Proofs
open Sys2Proof.Machine Sys2Proof.Safety

/-- Settles O47: by induction on the ticks the block stands at a position of the waveform, whose level is R154's. -/
theorem sequencerFollowsTheWaveform : Obligations.SequencerFollowsTheWaveform := by
  unfold Obligations.SequencerFollowsTheWaveform
  refine ⟨?_, fun s t hp hl hb h hw => step_keeps_idle_line hp hl hb h hw⟩
  rintro s b0 b1 b2 b3 f hlegal hp hc hv hd rfl u hr
  have hstart := step_of_transmit (noResetFor_head hr) hp hv hc hd
  have hsent : NoResetFor u (sending s (b0 ++ b1 ++ b2 ++ b3) (TxPos.first s.cfg) s.inputs.tail) :=
    noResetFor_drop (n := 1) (Nat.add_comm u 1 ▸ hr) List.drop_one.symm
  rw [edges_succ u hstart, totalUs_mul_ticksPerUs]
  refine ⟨fun hu => ?_, ?_⟩
  · obtain ⟨q, hq, hrun⟩ := edges_sending hlegal hu hsent
    exact ⟨_, hrun, (hq.level_eq (one_le_ticksPerUs hlegal)).symm, rfl, rfl, rfl⟩
  · rintro rfl
    obtain ⟨p, rest, hlow, hrun⟩ := edges_sending_to_end hlegal hsent
    exact ⟨_, hrun, hlow, rfl, rfl, rfl, fault_of_cmdReady (s := s) hc, rfl, rfl, rfl⟩

end Sys2Proof.Proofs
end

section
/-! Which step raises which fault (60_exceptions.md R181, R185). -/

namespace Sys2Proof.Machine

/-! ## The applicator's range check -/

/-- Over a built table the applicator fails exactly when a set bit selects an index past the table (R54). -/
theorem hashTbl_eq_outOfRange_iff {s : State} {T data : List Byte} {off : Nat} (hT : Safety.TableHolds s T) :
    hashTbl s data off = .error .outOfRange ↔ ¬ Safety.IndicesBelow data off s.cfg.tableSize := by
  rw [hashTbl_of_tableHolds hT, ← hT.1]
  refine ⟨fun herr hin => ?_, hash_of_not_indicesBelow⟩
  rw [hash_of_indicesBelow hin] at herr
  cases herr

/-- A checksum was computed, so every selected index is inside the table. -/
theorem indicesBelow_of_hashTbl_ok {s : State} {T data : List Byte} {off : Nat} {b : Byte} (hT : Safety.TableHolds s T)
    (hb : hashTbl s data off = .ok b) : Safety.IndicesBelow data off s.cfg.tableSize := by
  by_contra hout
  rw [(hashTbl_eq_outOfRange_iff hT).2 hout] at hb
  cases hb

/-! ## What faults -/

/-- No edge of a pulse raises a fault (R182). -/
theorem pulseEdge_keeps_fault {y : Symbol} {s t : State} (h : pulseEdge y s = .next t) : t.fault = s.fault := by
  rcases pulseEdge_next h with ⟨-, rfl⟩ | ⟨-, -, rfl⟩ | ⟨-, -, rfl⟩ | ⟨-, -, k, -, rfl⟩ | ⟨-, -, -, rfl⟩ <;> rfl

/-- The fault of an instruction does not depend on the host's drive. -/
theorem faultOf_afterEdge (s : State) (i : Instr) : Safety.faultOf (afterEdge s) i = Safety.faultOf s i := by
  cases i <;> rfl

/-- The codes 5 to 7 are in no row of the fault table (R181). -/
theorem faultOf_toNat_le (s : State) (i : Instr) : (Safety.faultOf s i).toNat ≤ 4 := by
  cases i with
  | build => rw [Safety.faultOf]; split <;> decide
  | hash data off => rw [Safety.faultOf]; split_ifs <;> decide
  | generate id ok temp => rw [Safety.faultOf]; split <;> decide
  | _ => simp [Safety.faultOf]

/-- From a state without a fault every meaning leaves the fault table's code. The room that the record gives a frame's body
keeps GENERATE from reading past the table, so only HASH can take E_RANGE (R182). -/
theorem exec_fault {i : Instr} {s t : State} {T : List Byte} (hsize : 24 + s.cfg.chkOffset ≤ s.cfg.tableSize)
    (hT : s.tableValid = true → Safety.TableHolds s T) (hf : s.fault = 0) (h : exec i s = .next t) :
    t.fault = Safety.faultOf s i := by
  have pulse : ∀ y, pulseEdge y s = .next t → t.fault = 0 := fun y h => (pulseEdge_keeps_fault h).trans hf
  cases i with
  | build =>
    rcases execBuild_next h with ⟨hv, rfl⟩ | ⟨hv, rfl⟩
    · simp [Safety.faultOf, hv, ErrCode.code]
    · simp [Safety.faultOf, hv, hf]
  | hash data off =>
    rcases execHash_next h with ⟨hv, rfl⟩ | ⟨hv, b, hb, rfl⟩ | ⟨hv, hrange, rfl⟩
    · simp [Safety.faultOf, hv, ErrCode.code]
    · have hin : Safety.IndicesBelow data off s.cfg.tableSize :=
        indicesBelow_of_hashTbl_ok (s := accept s) (hT hv) hb
      simp only [Safety.faultOf, if_pos hv, if_pos hin]
      exact hf
    · have hout : ¬ Safety.IndicesBelow data off s.cfg.tableSize :=
        (hashTbl_eq_outOfRange_iff (s := accept s) (hT hv)).1 hrange
      simp only [Safety.faultOf, if_pos hv, if_neg hout]
      rfl
  | convert reg => cases h; exact hf
  | generate id ok temp =>
    rcases execGenerate_next h with ⟨hv, rfl⟩ | ⟨hv, b, -, rfl⟩ | ⟨hv, hrange, -⟩
    · simp [Safety.faultOf, hv, ErrCode.code]
    · simp [Safety.faultOf, hv, hf]
    · exact absurd (indicesBelow_frameBody id ok temp hsize)
        ((hashTbl_eq_outOfRange_iff (s := accept s) (hT hv)).1 hrange)
  | transmit b0 b1 b2 b3 => cases h; exact hf
  | reserved5 => cases h; rfl
  | reserved6 => cases h; rfl
  | reserved7 => cases h; rfl
  | zero => exact pulse .zero h
  | one => exact pulse .one h
  | start => exact pulse .start h
  | stop => exact pulse .stop h

/-! ## The step -/

/-- An edge that accepts no command raises no fault (R181). -/
theorem step_fault_of_no_command {s t : State} (hf : s.fault = 0) (h : step s = .next t)
    (hno : ¬ ((portIn s).rst = false ∧ s.txPhase = .idle ∧ (portIn s).cmdValid = true)) : t.fault = 0 := by
  obtain ⟨-, rfl⟩ | ⟨-, -, rfl⟩ | ⟨-, -, hpulse⟩ | ⟨hr, hp, hv, -⟩ := step_next h
  · exact resetBlock_fault _
  · exact hf
  · exact (pulseEdge_keeps_fault hpulse).trans hf
  · exact absurd ⟨hr, hp, hv⟩ hno

/-- In the invariant an idle block without a fault is ready, and the command that it accepts takes the fault table's code. -/
theorem step_fault_of_command {s t : State} (hs : Safety.StateInv s) (hf : s.fault = 0) (h : step s = .next t)
    (hr : (portIn s).rst = false) (hp : s.txPhase = .idle) (hv : (portIn s).cmdValid = true) :
    t.fault = Safety.faultOf s (decodeCommand (portIn s).cmd) := by
  obtain ⟨⟨-, hsize, -⟩, -, -, hbusy, -, htable, -⟩ := hs
  have hidle : s.busy = false := Bool.eq_false_iff.2 fun hb => hbusy.1 hb hp
  rw [step_of_command hr hp hv (cmdReady_eq_true hidle hf)] at h
  calc t.fault = Safety.faultOf (afterEdge s) (decodeCommand (portIn s).cmd) :=
        exec_fault (s := afterEdge s) hsize htable hf h
    _ = _ := faultOf_afterEdge s _

end Sys2Proof.Machine

namespace Sys2Proof.Proofs
open Sys2Proof.Machine Sys2Proof.Safety

/-- Settles O54: by whether the edge accepts a command; no code of the fault table is above 4. -/
theorem faultCodesHaveTheirCauses : Obligations.FaultCodesHaveTheirCauses := by
  unfold Obligations.FaultCodesHaveTheirCauses
  intro s t hs hf h
  split_ifs with hcmd
  · obtain ⟨hr, hp, hv⟩ := hcmd
    have hfault := step_fault_of_command hs hf h hr hp hv
    exact ⟨hfault, hfault ▸ faultOf_toNat_le s _⟩
  · have hfault := step_fault_of_no_command hf h hcmd
    exact ⟨hfault, hfault ▸ by decide⟩

end Sys2Proof.Proofs
end

section
/-! Command words put together field by field, and the decoder's answer on the encoder's words (30_encoding.md R80 to R87,
R90). -/

namespace Sys2Proof

/-! ## The operation map (R90) -/

theorem decodeCommand_of_op_build {w : Command} (h : opField w = 0) : decodeCommand w = .build := by
  simp [decodeCommand, h]

theorem decodeCommand_of_op_hash {w : Command} (h : opField w = 1) :
    decodeCommand w = .hash (payloadField w) (offField w).toNat := by
  simp [decodeCommand, h]

theorem decodeCommand_of_op_convert {w : Command} (h : opField w = 2) :
    decodeCommand w = .convert (w.extractLsb' 0 16) := by
  simp [decodeCommand, h]

theorem decodeCommand_of_op_generate {w : Command} (h : opField w = 3) :
    decodeCommand w = .generate (w.extractLsb' 24 8) (w.getLsbD 16) (w.extractLsb' 0 16) := by
  simp [decodeCommand, h]

theorem decodeCommand_of_op_transmit {w : Command} (h : opField w = 4) :
    decodeCommand w =
      .transmit (w.extractLsb' 24 8) (w.extractLsb' 16 8) (w.extractLsb' 8 8) (w.extractLsb' 0 8) := by
  simp [decodeCommand, h]

theorem decodeCommand_of_op_reserved5 {w : Command} (h : opField w = 5) : decodeCommand w = .reserved5 := by
  simp [decodeCommand, h]

theorem decodeCommand_of_op_reserved6 {w : Command} (h : opField w = 6) : decodeCommand w = .reserved6 := by
  simp [decodeCommand, h]

theorem decodeCommand_of_op_reserved7 {w : Command} (h : opField w = 7) : decodeCommand w = .reserved7 := by
  simp [decodeCommand, h]

/-! ## HASH (R82) -/

/-- The payload field of a packed HASH: the first `len` of its three bytes. -/
theorem payloadField_packCommand (op : BitVec 3) (n : BitVec 2) (x : BitVec 1) (off : BitVec 5) (b0 b1 b2 : Byte) :
    payloadField (packCommand op (packBytes (n ++ x ++ off) b0 b1 b2)) = [b0, b1, b2].take n.toNat := by
  obtain ⟨hhead, h0, h1, h2⟩ := extract_packBytes (n ++ x ++ off) b0 b1 b2
  have hlen : (packBytes (n ++ x ++ off) b0 b1 b2).extractLsb' 30 2 = n := by
    rw [packBytes, extract_append_high _ _ (by decide), extract_append_high _ _ (by decide),
      extract_append_high _ _ (by decide), extract_append_high _ _ (by decide), extract_append_high _ _ (by decide)]
    exact extract_all n
  rw [payloadField, lenField, extract_packCommand _ _ (by decide), extract_packCommand _ _ (by decide),
    extract_packCommand _ _ (by decide), extract_packCommand _ _ (by decide), hlen, h0, h1, h2]

theorem offField_packCommand (op : BitVec 3) (n : BitVec 2) (x : BitVec 1) (off : BitVec 5) (b0 b1 b2 : Byte) :
    offField (packCommand op (packBytes (n ++ x ++ off) b0 b1 b2)) = off := by
  rw [offField, extract_packCommand _ _ (by decide), packBytes, extract_append_high _ _ (by decide),
    extract_append_high _ _ (by decide), extract_append_high _ _ (by decide), extract_append_low _ _ (by decide)]
  exact extract_all off

/-- The ignored bit 29 does not matter (R87). -/
theorem decodeCommand_pack_hash (n : BitVec 2) (x : BitVec 1) (off : BitVec 5) (b0 b1 b2 : Byte) :
    decodeCommand (packCommand 1 (packBytes (n ++ x ++ off) b0 b1 b2)) =
      .hash ([b0, b1, b2].take n.toNat) off.toNat := by
  rw [decodeCommand_of_op_hash (opField_packCommand ..), payloadField_packCommand, offField_packCommand]

/-- Up to three bytes, padded and cut to their number, are themselves. -/
theorem take_padded {data : List Byte} (h : data.length ≤ 3) :
    [data.getD 0 0, data.getD 1 0, data.getD 2 0].take data.length = data := by
  match data, h with
  | [], _ => rfl
  | [_], _ => rfl
  | [_, _], _ => rfl
  | [_, _, _], _ => rfl

/-! ## CONVERT, GENERATE, TRANSMIT (R83 to R85) -/

theorem decodeCommand_pack_convert (x : BitVec 16) (reg : Half) :
    decodeCommand (packCommand 2 (x ++ reg)) = .convert reg := by
  rw [decodeCommand_of_op_convert (opField_packCommand ..), extract_packCommand _ _ (by decide),
    extract_append_low _ _ (by decide), extract_all]

theorem decodeCommand_pack_generate (id : Byte) (x : BitVec 7) (b : Bool) (t : Half) :
    decodeCommand (packCommand 3 (id ++ x ++ BitVec.ofBool b ++ t)) = .generate id b t := by
  have hid : (packCommand 3 (id ++ x ++ BitVec.ofBool b ++ t)).extractLsb' 24 8 = id := by
    rw [extract_packCommand _ _ (by decide), extract_append_high _ _ (by decide), extract_append_high _ _ (by decide),
      extract_append_high _ _ (by decide)]
    exact extract_all id
  have hb : (packCommand 3 (id ++ x ++ BitVec.ofBool b ++ t)).getLsbD 16 = b := by
    rw [packCommand, bit_append_low _ _ (by decide), bit_append_high _ _ (by decide), bit_append_low _ _ (by decide)]
    simp
  have ht : (packCommand 3 (id ++ x ++ BitVec.ofBool b ++ t)).extractLsb' 0 16 = t := by
    rw [extract_packCommand _ _ (by decide), extract_append_low _ _ (by decide), extract_all]
  rw [decodeCommand_of_op_generate (opField_packCommand ..), hid, hb, ht]

theorem decodeCommand_pack_transmit (b0 b1 b2 b3 : Byte) :
    decodeCommand (packCommand 4 (packBytes b0 b1 b2 b3)) = .transmit b0 b1 b2 b3 := by
  obtain ⟨h0, h1, h2, h3⟩ := extract_packBytes b0 b1 b2 b3
  rw [decodeCommand_of_op_transmit (opField_packCommand ..), extract_packCommand _ _ (by decide),
    extract_packCommand _ _ (by decide), extract_packCommand _ _ (by decide), extract_packCommand _ _ (by decide),
    h0, h1, h2, h3]

/-! ## Words written from left to right -/

theorem append_eq_packCommand_hash (op : BitVec 3) (n : BitVec 2) (x : BitVec 1) (off : BitVec 5) (b0 b1 b2 : Byte) :
    (op ++ n ++ x ++ off ++ b0 ++ b1 ++ b2 : Command) = packCommand op (packBytes (n ++ x ++ off) b0 b1 b2) := by
  unfold packCommand packBytes
  repeat rw [BitVec.append_assoc']
  rfl

theorem append_eq_packCommand_convert (op : BitVec 3) (x : BitVec 16) (reg : Half) :
    (op ++ x ++ reg : Command) = packCommand op (x ++ reg) :=
  BitVec.append_assoc

theorem append_eq_packCommand_generate (op : BitVec 3) (id : Byte) (x : BitVec 7) (b : BitVec 1) (t : Half) :
    (op ++ id ++ x ++ b ++ t : Command) = packCommand op (id ++ x ++ b ++ t) := by
  unfold packCommand
  repeat rw [BitVec.append_assoc']
  rfl

theorem append_eq_packCommand_bytes (op : BitVec 3) (b0 b1 b2 b3 : Byte) :
    (op ++ b0 ++ b1 ++ b2 ++ b3 : Command) = packCommand op (packBytes b0 b1 b2 b3) := by
  unfold packCommand packBytes
  repeat rw [BitVec.append_assoc']
  rfl

end Sys2Proof

namespace Sys2Proof.Proofs

/-- Settles O1: by the instruction; the encoder's word is a packed word, whose fields the decoder reads back. -/
theorem decodeInvertsEncode : Obligations.DecodeInvertsEncode := by
  unfold Obligations.DecodeInvertsEncode
  intro i hi
  cases i with
  | build => exact decodeCommand_of_op_build (opField_packCommand 0 0)
  | hash data off =>
    obtain ⟨hlen, hoff⟩ := hi
    have hlen3 : (BitVec.ofNat 2 data.length).toNat = data.length := Nat.mod_eq_of_lt (by omega)
    have hoff31 : (BitVec.ofNat 5 off).toNat = off := Nat.mod_eq_of_lt (by omega)
    refine (decodeCommand_pack_hash ..).trans ?_
    rw [hlen3, hoff31, take_padded hlen]
  | convert reg => exact decodeCommand_pack_convert 0 reg
  | generate id ok temp => exact decodeCommand_pack_generate id 0 ok temp
  | transmit b0 b1 b2 b3 => exact decodeCommand_pack_transmit b0 b1 b2 b3
  | reserved5 => exact decodeCommand_of_op_reserved5 (opField_packCommand 5 0)
  | reserved6 => exact decodeCommand_of_op_reserved6 (opField_packCommand 6 0)
  | reserved7 => exact decodeCommand_of_op_reserved7 (opField_packCommand 7 0)
  | zero => rfl
  | one => rfl
  | start => rfl
  | stop => rfl

/-- Settles O2: each word is a packed word. -/
theorem commandWordsMeanTheirFields : Obligations.CommandWordsMeanTheirFields := by
  unfold Obligations.CommandWordsMeanTheirFields
  refine ⟨fun x => decodeCommand_of_op_build (opField_packCommand 0 x), fun n x off b0 b1 b2 => ?_, fun x reg => ?_,
    fun id x b t => ?_, fun b0 b1 b2 b3 => ?_, fun x => decodeCommand_of_op_reserved5 (opField_packCommand 5 x),
    fun x => decodeCommand_of_op_reserved6 (opField_packCommand 6 x),
    fun x => decodeCommand_of_op_reserved7 (opField_packCommand 7 x)⟩
  · rw [append_eq_packCommand_hash]
    exact decodeCommand_pack_hash n x off b0 b1 b2
  · rw [append_eq_packCommand_convert]
    exact decodeCommand_pack_convert x reg
  · rw [append_eq_packCommand_generate]
    exact decodeCommand_pack_generate id x b t
  · rw [append_eq_packCommand_bytes]
    exact decodeCommand_pack_transmit b0 b1 b2 b3

/-- Settles O3 by evaluating the decoder on each word. -/
theorem writtenOutWordsDecode : Obligations.WrittenOutWordsDecode := by
  unfold Obligations.WrittenOutWordsDecode
  decide

end Sys2Proof.Proofs
end

section
/-! The recurrence with tap `0x18` (40_checksum.md R110): its fixed points, its period and what follows for the table. -/

namespace Sys2Proof.Machine

/-! ## A step is linear -/

theorem lfsrStep_xor (a b tap : Byte) : lfsrStep (a ^^^ b) tap = lfsrStep a tap ^^^ lfsrStep b tap := by
  refine BitVec.eq_of_getLsbD_eq fun i hi => ?_
  rw [BitVec.getLsbD_xor, getLsbD_lfsrStep _ _ hi, getLsbD_lfsrStep _ _ hi, getLsbD_lfsrStep _ _ hi, BitVec.getLsbD_xor,
    BitVec.getLsbD_xor, Bool.and_xor_distrib_right]
  simp only [Bool.xor_assoc, Bool.xor_left_comm]

theorem iterate_lfsrStep_xor (a b tap : Byte) (n : Nat) :
    (fun r => lfsrStep r tap)^[n] (a ^^^ b) = (fun r => lfsrStep r tap)^[n] a ^^^ (fun r => lfsrStep r tap)^[n] b := by
  induction n with
  | zero => rfl
  | succ n ih => rw [Function.iterate_succ_apply', Function.iterate_succ_apply', Function.iterate_succ_apply', ih,
      lfsrStep_xor]

/-! ## The fixed points -/

/-- The bits of a fixed register, from 7 down: copies of bit 0, flipped at the tap's two bits. -/
theorem getLsbD_of_lfsrStep_eq_self {r : Byte} (h : lfsrStep r 0x18 = r) {i : Nat} (hi : i < 8) :
    r.getLsbD i = ((0xEF : Byte).getLsbD i && r.getLsbD 0) := by
  have hbit : ∀ j < 8, r.getLsbD j = (r.getLsbD ((j + 1) % 8) ^^ (r.getLsbD 0 && (0x18 : Byte).getLsbD j)) :=
    fun j hj => by rw [← getLsbD_lfsrStep r _ hj, h]
  have copied : ∀ j < 8, (0x18 : Byte).getLsbD j = false → r.getLsbD j = r.getLsbD ((j + 1) % 8) :=
    fun j hj htap => by rw [hbit j hj, htap, Bool.and_false, Bool.xor_false]
  have flipped : ∀ j < 8, (0x18 : Byte).getLsbD j = true → r.getLsbD j = (r.getLsbD ((j + 1) % 8) ^^ r.getLsbD 0) :=
    fun j hj htap => by rw [hbit j hj, htap, Bool.and_true]
  have h7 : r.getLsbD 7 = r.getLsbD 0 := copied 7 (by decide) rfl
  have h6 : r.getLsbD 6 = r.getLsbD 0 := (copied 6 (by decide) rfl).trans h7
  have h5 : r.getLsbD 5 = r.getLsbD 0 := (copied 5 (by decide) rfl).trans h6
  have h4 : r.getLsbD 4 = false := by rw [flipped 4 (by decide) rfl, h5, Bool.xor_self]
  have h3 : r.getLsbD 3 = r.getLsbD 0 := by rw [flipped 3 (by decide) rfl, h4, Bool.false_xor]
  have h2 : r.getLsbD 2 = r.getLsbD 0 := (copied 2 (by decide) rfl).trans h3
  have h1 : r.getLsbD 1 = r.getLsbD 0 := (copied 1 (by decide) rfl).trans h2
  interval_cases i
  exacts [rfl, h1, h2, h3, h4, h5, h6, h7]

theorem lfsrStep_eq_self_iff (r : Byte) : lfsrStep r 0x18 = r ↔ r = 0x00 ∨ r = 0xEF := by
  constructor
  · intro h
    cases h0 : r.getLsbD 0 with
    | false =>
      refine .inl (BitVec.eq_of_getLsbD_eq fun i hi => ?_)
      rw [getLsbD_of_lfsrStep_eq_self h hi, h0, Bool.and_false]
      exact BitVec.getLsbD_zero.symm
    | true =>
      refine .inr (BitVec.eq_of_getLsbD_eq fun i hi => ?_)
      rw [getLsbD_of_lfsrStep_eq_self h hi, h0, Bool.and_true]
  · rintro (rfl | rfl) <;> decide

/-! ## The period -/

/-- The lowest `n + 1` bits of a register are the lowest `n` with bit `n` put in. -/
theorem setWidth_succ_eq_xor (r : Byte) {n : Nat} (hn : n < 8) :
    (r.setWidth (n + 1)).setWidth 8 = (r.setWidth n).setWidth 8 ^^^ (if r.getLsbD n then BitVec.twoPow 8 n else 0#8) := by
  refine BitVec.eq_of_getLsbD_eq fun i hi => ?_
  have htop : (if r.getLsbD n then BitVec.twoPow 8 n else 0#8).getLsbD i = (r.getLsbD n && decide (n = i)) := by
    cases r.getLsbD n <;> simp [BitVec.getLsbD_twoPow, hn]
  rw [BitVec.getLsbD_xor, htop]
  simp only [BitVec.getLsbD_setWidth, hi]
  obtain hlt | rfl | hgt := Nat.lt_trichotomy i n
  · simp [hlt, Nat.lt_succ_of_lt hlt, hlt.ne']
  · simp
  · simp [hgt.ne, hgt.not_gt, show ¬ i < n + 1 by omega]

/-- What holds of the registers with one bit set, and of XORs, holds of every register. -/
theorem byte_xor_induction {P : Byte → Prop} (zero : P 0#8) (bit : ∀ i < 8, P (BitVec.twoPow 8 i))
    (xor : ∀ a b, P a → P b → P (a ^^^ b)) (r : Byte) : P r := by
  have low : ∀ n ≤ 8, P ((r.setWidth n).setWidth 8) := by
    intro n
    induction n with
    | zero =>
      have hnil : r.setWidth 0 = BitVec.nil := BitVec.eq_nil _
      exact fun _ => hnil ▸ zero
    | succ n ih =>
      intro hn
      rw [setWidth_succ_eq_xor r hn]
      refine xor _ _ (ih (by omega)) ?_
      split
      · exact bit n hn
      · exact zero
  simpa using low 8 le_rfl
theorem iterate_127_lfsrStep_twoPow :
    ∀ i < 8, (fun r => lfsrStep r 0x18)^[127] (BitVec.twoPow 8 i) = BitVec.twoPow 8 i := by
  decide +kernel

theorem iterate_127_lfsrStep (r : Byte) : (fun r => lfsrStep r 0x18)^[127] r = r := by
  induction r using byte_xor_induction with
  | zero => exact Function.iterate_fixed (by decide) 127
  | bit i hi => exact iterate_127_lfsrStep_twoPow i hi
  | xor a b ha hb => rw [iterate_lfsrStep_xor, ha, hb]

/-- A function of which some power is the identity has an inverse, one power less. -/
theorem bijective_of_iterate_succ_eq {α : Type} {f : α → α} {n : Nat} (h : ∀ x, f^[n + 1] x = x) :
    Function.Bijective f :=
  Function.bijective_iff_has_inverse.2
    ⟨f^[n], fun x => (Function.iterate_succ_apply f n x).symm.trans (h x),
      fun x => (Function.iterate_succ_apply' f n x).symm.trans (h x)⟩

theorem bijective_lfsrStep : Function.Bijective (fun r => lfsrStep r 0x18) :=
  bijective_of_iterate_succ_eq iterate_127_lfsrStep

/-- 127 is prime, so a register that is no fixed point has exactly this period. -/
theorem minimalPeriod_lfsrStep {r : Byte} (h : lfsrStep r 0x18 ≠ r) :
    Function.minimalPeriod (fun r => lfsrStep r 0x18) r = 127 :=
  have : Fact (Nat.Prime 127) := ⟨by norm_num⟩
  Function.minimalPeriod_eq_prime (iterate_127_lfsrStep r) h

/-- Before the period is over, no register but a fixed point comes back. -/
theorem iterate_lfsrStep_ne {r : Byte} (h : lfsrStep r 0x18 ≠ r) {n : Nat} (hn : n < 127) (hpos : 0 < n) :
    (fun r => lfsrStep r 0x18)^[n] r ≠ r :=
  Function.not_isPeriodicPt_of_pos_of_lt_minimalPeriod hpos.ne' (by rwa [minimalPeriod_lfsrStep h])

/-- The table repeats after 127 entries. -/
theorem getElem?_lfsrTable_add_127 (seed : Byte) {M i : Nat} (hi : i + 127 < M) :
    (lfsrTable seed 0x18 M)[i + 127]? = (lfsrTable seed 0x18 M)[i]? := by
  rw [getElem?_lfsrTable _ _ hi, getElem?_lfsrTable _ _ (by omega), Nat.add_right_comm,
    Function.iterate_add_apply, iterate_127_lfsrStep]

end Sys2Proof.Machine

namespace Sys2Proof.Proofs
open Sys2Proof.Machine

/-- Settles O21: the 127th power is the identity since a step is linear and the eight one-bit registers return; a register
that is no fixed point has no smaller period, for 127 is prime. -/
theorem recurrenceProperties : Obligations.RecurrenceProperties := by
  unfold Obligations.RecurrenceProperties
  have hseed : lfsrStep 0x7C 0x18 ≠ 0x7C := by decide
  obtain ⟨h28, h32⟩ := referenceTable
  refine ⟨bijective_lfsrStep, lfsrStep_eq_self_iff, iterate_127_lfsrStep,
    fun n hn hpos => iterate_lfsrStep_ne hseed hn hpos, fun i => getElem?_lfsrTable_add_127 _ (by omega), ?_, ?_⟩
  · rw [h32, h28]
    decide
  · rw [h32, h28]
    rfl

end Sys2Proof.Proofs
end

section
/-! The laws of the applicator (40_checksum.md R107, R108): one bit, concatenation, order, and the table's size. -/

namespace Sys2Proof.Machine

/-! ## The fold -/

/-- The fold sees the payload and the positions only through the bit and the index of each position. -/
theorem hashFold_map (rd : Nat → Except TblError Byte) {a b : List Byte} {off off' : Nat} {g : Nat → Nat} {ps : List Nat}
    (h : ∀ p ∈ ps, bitAt a (g p) = bitAt b p ∧ g p + off = p + off') (acc : Byte) :
    hashFold rd a off (ps.map g) acc = hashFold rd b off' ps acc := by
  induction ps generalizing acc with
  | nil => rfl
  | cons p ps ih =>
    obtain ⟨hbit, hidx⟩ := h p (List.mem_cons_self ..)
    have ih := ih fun q hq => h q (List.mem_cons_of_mem _ hq)
    rw [List.map_cons]
    cases hb : bitAt b p with
    | false => rw [hashFold_clear _ _ _ _ hb, hashFold_clear _ _ _ _ (hbit.trans hb), ih]
    | true =>
      cases hr : rd (p + off') with
      | ok v => rw [hashFold_set _ _ hb hr, hashFold_set _ _ (hbit.trans hb) (hidx ▸ hr), ih]
      | error e => rw [hashFold_stop _ _ hb hr, hashFold_stop _ _ (hbit.trans hb) (hidx ▸ hr)]

/-- The accumulator's start is folded into the result: linearity with a payload without set bits. -/
theorem hashFold_ok_of_zero {rd : Nat → Except TblError Byte} {data : List Byte} {off : Nat} {ps : List Nat} {x : Byte}
    (h : hashFold rd data off ps 0 = .ok x) (acc : Byte) : hashFold rd data off ps acc = .ok (acc ^^^ x) := by
  have hclear : hashFold rd [] off ps acc = .ok acc := hashFold_of_clear rd off (fun p _ => by simp [bitAt]) acc
  simpa using hashFold_xor (c := data) (fun p _ => by simp [bitAt]) hclear h

/-- Where every selected index is inside the table the fold is an XOR, which commutes; elsewhere the fold fails in any
order. -/
theorem hashFold_tableEntry_perm {data T : List Byte} {off : Nat} {ps qs : List Nat} (h : ps.Perm qs) (acc : Byte) :
    hashFold (tableEntry T) data off ps acc = hashFold (tableEntry T) data off qs acc := by
  by_cases hin : ∀ p ∈ ps, bitAt data p = true → p + off < T.length
  · rw [hashFold_eq_xor fun p hp hb => tableEntry_of_lt (hin p hp hb),
      hashFold_eq_xor fun p hp hb => tableEntry_of_lt (hin p (h.mem_iff.2 hp) hb)]
    refine congrArg _ ((h.filter _).foldl_eq' (fun p _ q _ z => ?_) acc)
    rw [BitVec.xor_assoc, BitVec.xor_assoc, BitVec.xor_comm (T.getD (q + off) 0)]
  · simp only [not_forall, Nat.not_lt] at hin
    obtain ⟨p, hp, hb, hpast⟩ := hin
    have herr := tableEntry_of_length_le hpast
    rw [hashFold_eq_error (rd := tableEntry T) (fun _ _ => tableEntry_error) ⟨p, hp, hb, herr⟩,
      hashFold_eq_error (rd := tableEntry T) (fun _ _ => tableEntry_error) ⟨p, h.mem_iff.1 hp, hb, herr⟩]

/-! ## One bit (R107 items 3 and 4) -/

theorem filter_range_eq_singleton {n p : Nat} {f : Nat → Bool} (hp : p < n) (hf : ∀ q < n, f q = decide (q = p)) :
    (List.range n).filter f = [p] := by
  have hcount : (List.range n).count p = 1 := List.count_eq_one_of_mem List.nodup_range (List.mem_range.2 hp)
  calc (List.range n).filter f = (List.range n).filter (· == p) :=
        List.filter_congr fun q hq => by rw [hf q (List.mem_range.1 hq), beq_eq_decide]
    _ = [p] := by rw [List.filter_beq, hcount, List.replicate_one]

theorem hash_of_one_bit {data T : List Byte} {off p : Nat} {v : Byte} (hp : p < 8 * data.length)
    (hbits : ∀ q < 8 * data.length, bitAt data q = decide (q = p)) (hv : T[p + off]? = some v) :
    hash data T off = .ok v := by
  have hlt : p + off < T.length := (List.getElem?_eq_some_iff.1 hv).1
  have hin : Safety.IndicesBelow data off T.length := by
    intro q hq hb
    rw [hbits q hq, decide_eq_true_eq] at hb
    exact hb ▸ hlt
  rw [hash_of_indicesBelow hin, Safety.checksumOf, filter_range_eq_singleton hp hbits]
  simp [List.getD_eq_getElem?_getD, hv]

/-- The XOR of the two payloads has the one bit set, and the applicator is linear. -/
theorem hash_of_flipped_bit {a b T : List Byte} {off p : Nat} {v x : Byte} (hlen : a.length = b.length)
    (hp : p < 8 * a.length) (hbits : ∀ q < 8 * a.length, bitAt b q = (bitAt a q ^^ decide (q = p)))
    (hv : T[p + off]? = some v) (hx : hash a T off = .ok x) : hash b T off = .ok (x ^^^ v) := by
  obtain ⟨c, hclen, hcbit⟩ : ∃ c : List Byte, c.length = a.length ∧ ∀ q < 8 * a.length, bitAt c q = decide (q = p) :=
    ⟨List.zipWith (· ^^^ ·) a b, by simp [← hlen], fun q hq => by
      rw [bitAt_zipWith_xor hlen, hbits q hq, ← Bool.xor_assoc, Bool.xor_self, Bool.false_xor]⟩
  have hc : hash c T off = .ok v := hash_of_one_bit (hclen ▸ hp) (hclen ▸ hcbit) hv
  rw [hash, bitPositions, hclen] at hc
  rw [hash, bitPositions, ← hlen]
  exact hashFold_xor (accA := 0) (accB := 0)
    (fun q hq => by rw [hcbit q (List.mem_range.1 hq), hbits q (List.mem_range.1 hq)]) hx hc

/-! ## Concatenation (R107 item 5) -/

theorem bitAt_append_left {a : List Byte} (b : List Byte) {p : Nat} (hp : p < 8 * a.length) :
    bitAt (a ++ b) p = bitAt a p := by
  have hq : p / 8 < a.length := by omega
  simp [bitAt, List.getD_eq_getElem?_getD, List.getElem?_append_left hq]

theorem bitAt_append_right (a b : List Byte) (p : Nat) : bitAt (a ++ b) (8 * a.length + p) = bitAt b p := by
  have hq : (8 * a.length + p) / 8 = a.length + p / 8 := by omega
  have hr : (8 * a.length + p) % 8 = p % 8 := by omega
  have hbyte : (a ++ b)[a.length + p / 8]? = b[p / 8]? := by
    rw [List.getElem?_append_right (Nat.le_add_right ..), Nat.add_sub_cancel_left]
  rw [bitAt, bitAt, hq, hr, List.getD_eq_getElem?_getD, List.getD_eq_getElem?_getD, hbyte]

theorem bitPositions_append (a b : List Byte) :
    bitPositions (a ++ b) = (bitPositions a).map id ++ (bitPositions b).map (8 * a.length + ·) := by
  rw [bitPositions, List.length_append, Nat.mul_add, List.range_add, List.map_id, bitPositions, bitPositions]

theorem hash_append {a b T : List Byte} {off : Nat} {x y : Byte} (ha : hash a T off = .ok x)
    (hb : hash b T (off + 8 * a.length) = .ok y) : hash (a ++ b) T off = .ok (x ^^^ y) := by
  have hfirst : hashFold (tableEntry T) (a ++ b) off ((bitPositions a).map id) 0 = .ok x :=
    (hashFold_map _ (fun p hp => ⟨bitAt_append_left b (List.mem_range.1 hp), rfl⟩) 0).trans ha
  have hsecond : hashFold (tableEntry T) (a ++ b) off ((bitPositions b).map (8 * a.length + ·)) x = .ok (x ^^^ y) :=
    (hashFold_map _ (fun p _ => ⟨bitAt_append_right a b p, by omega⟩) x).trans (hashFold_ok_of_zero hb x)
  rw [hash, bitPositions_append, hashFold_append, hfirst]
  exact hsecond

/-! ## The table's size (R108) -/

/-- Two tables with the same bytes at the indices below `size` give the same hash of a payload that selects no other. -/
theorem hash_congr_table {data T T' : List Byte} {off size : Nat} (hin : Safety.IndicesBelow data off size)
    (h : ∀ i < size, T[i]? = T'[i]?) : hash data T off = hash data T' off :=
  hashFold_congr (fun p hp hb => by rw [tableEntry, tableEntry, h _ (hin p (List.mem_range.1 hp) hb)]) 0

theorem generate_lfsrTable_28_eq_32 {c : Config} (hoff : c.chkOffset = 4) (seed tap id : Byte) (ok : Bool) (t : Half) :
    generate c id ok t (lfsrTable seed tap 28) = generate c id ok t (lfsrTable seed tap 32) := by
  have hin : Safety.IndicesBelow (frameBody id ok t) c.chkOffset 28 := indicesBelow_frameBody id ok t (by omega)
  have htables : ∀ i < 28, (lfsrTable seed tap 28)[i]? = (lfsrTable seed tap 32)[i]? := fun i hi => by
    rw [getElem?_lfsrTable seed tap hi, getElem?_lfsrTable seed tap (show i < 32 by omega)]
  rw [generate, generate, hash_congr_table hin htables]

end Sys2Proof.Machine

namespace Sys2Proof.Proofs
open Sys2Proof.Machine

/-- Settles O25: the two laws that the message encoder's proofs use already. -/
theorem hashIsLinear : Obligations.HashIsLinear := by
  unfold Obligations.HashIsLinear
  exact ⟨hash_replicate_zero, fun _ _ _ _ _ _ hlen ha hb => hash_zipWith_xor hlen ha hb⟩

/-- Settles O26: the first law by the closed form, the second by the first and linearity. -/
theorem oneBitSelectsOneEntry : Obligations.OneBitSelectsOneEntry := by
  unfold Obligations.OneBitSelectsOneEntry
  exact ⟨fun _ _ _ _ _ hp hbits hv => hash_of_one_bit hp hbits hv,
    fun _ _ _ _ _ _ _ hlen hp hbits hv hx => hash_of_flipped_bit hlen hp hbits hv hx⟩

/-- Settles O27: the positions of the second payload come after those of the first, with their indices moved up. -/
theorem hashOfConcatenation : Obligations.HashOfConcatenation := by
  unfold Obligations.HashOfConcatenation
  exact fun _ _ _ _ _ _ ha hb => hash_append ha hb

/-- Settles O28: XOR commutes, and a read past the table is met in any order. -/
theorem foldOrderDoesNotMatter : Obligations.FoldOrderDoesNotMatter := by
  unfold Obligations.FoldOrderDoesNotMatter
  exact fun _ _ _ _ h => hashFold_tableEntry_perm h 0

/-- Settles O40: a body of three bytes at offset 4 selects no index past 27, and there the two tables agree. -/
theorem tableSizeDoesNotChangeFrames : Obligations.TableSizeDoesNotChangeFrames := by
  unfold Obligations.TableSizeDoesNotChangeFrames
  exact fun _ seed tap id ok t hoff => generate_lfsrTable_28_eq_32 hoff seed tap id ok t

end Sys2Proof.Proofs
end

section
/-! One edge of each pulse symbol, and one whole pulse from its first tick to its end (43_ook_tx.md R158 to R165). -/

namespace Sys2Proof.Machine

/-! ## One edge -/

/-- R161. -/
theorem pulseEdge_of_idle {s : State} (hp : s.txPhase = .idle) (y : Symbol) : pulseEdge y s = .next s := by
  simp [pulseEdge, hp]

/-- The four transitions as one function of the off-time (R158 to R161). -/
theorem pulseEdge_eq_pulseTarget {s : State} (hp : s.txPhase ≠ .idle) (ht : 1 ≤ s.txTimer) (y : Symbol) :
    pulseEdge y s = .next (Safety.pulseTarget (offUs s.cfg y) s) := by
  obtain hmore | hlast := Nat.lt_or_eq_of_le ht
  · rw [pulseEdge_of_one_lt hp hmore, Safety.pulseTarget, if_pos hmore]
    rfl
  · have hnot : ¬ 1 < s.txTimer := by omega
    cases hph : s.txPhase with
    | idle => exact absurd hph hp
    | on =>
      rw [pulseEdge_end_of_on hph hlast.symm, Safety.pulseTarget, if_neg hnot, if_pos hph]
      rfl
    | off =>
      have hoff : s.txPhase ≠ .on := by rw [hph]; decide
      rw [Safety.pulseTarget, if_neg hnot, if_neg hoff]
      split
      · exact pulseEdge_next_symbol hph hlast.symm rfl y
      · exact pulseEdge_end_of_stop hph hlast.symm (by have := s.txK.isLt; omega) y

end Sys2Proof.Machine

namespace Sys2Proof.Safety
open Sys2Proof.Machine

/-! ## One phase -/

/-- The state `n` ticks further in the same phase (R158). -/
def ticksLater (n : Nat) (s : State) : State :=
  { s with txTimer := s.txTimer - n, inputs := s.inputs.drop n }

theorem countDown_ticksLater (n : Nat) (s : State) :
    countDown (afterEdge (ticksLater n s)) = ticksLater (n + 1) s := by
  simp [countDown, afterEdge, ticksLater, Nat.sub_sub]

theorem step_ticksLater {s : State} (hp : s.txPhase ≠ .idle) {n : Nat} (hr : NoResetFor (n + 1) s) :
    step (ticksLater n s) = pulseEdge (symbolAt s.txFrame s.txK) (afterEdge (ticksLater n s)) :=
  step_of_running (s := ticksLater n s) (rst_eq_false_of_noResetFor (t := ticksLater n s) hr rfl) hp

/-- Until the last tick of a phase only the timer counts. -/
theorem edges_within_phase {s : State} (hp : s.txPhase ≠ .idle) {n : Nat} (hn : n < s.txTimer) (hr : NoResetFor n s) :
    edges n s = .next (ticksLater n s) := by
  induction n with
  | zero => rfl
  | succ n ih =>
    have hlater : 1 < (ticksLater n s).txTimer := Nat.lt_sub_of_add_lt (Nat.add_comm 1 n ▸ hn)
    rw [edges_succ_last (ih (by omega) (noResetFor_mono hr (Nat.le_succ n))), step_ticksLater hp hr,
      ← countDown_ticksLater]
    exact pulseEdge_of_one_lt (s := afterEdge (ticksLater n s)) hp hlater _

/-- The last tick of the phase, as its last edge finds it. -/
def lastTick (s : State) : State :=
  { s with txTimer := 1, inputs := s.inputs.drop s.txTimer }

/-- A phase takes as many edges as its timer says; the last one is the pulse's edge at timer 1. -/
theorem edges_phase {s : State} (hp : s.txPhase ≠ .idle) (ht : 1 ≤ s.txTimer) (hr : NoResetFor s.txTimer s) :
    edges s.txTimer s = pulseEdge (symbolAt s.txFrame s.txK) (lastTick s) := by
  obtain ⟨n, hn⟩ := Nat.exists_eq_add_of_le' ht
  have hlast : afterEdge (ticksLater n s) = lastTick s := by
    simp [afterEdge, ticksLater, lastTick, hn]
  rw [hn] at hr ⊢
  rw [edges_succ_last (edges_within_phase hp (by omega) (noResetFor_mono hr (Nat.le_succ n))), step_ticksLater hp hr,
    hlast]

/-! ## One pulse -/

/-- The first tick of the off-time of a symbol whose on-time began in `s` (R159). -/
def offPhaseAfter (s : State) : State :=
  { s with
    txPhase := .off
    ookOut := false
    txTimer := offTicks s.cfg (symbolAt s.txFrame s.txK)
    inputs := s.inputs.drop s.txTimer }

section
variable {s : State}

theorem edges_on_phase (hp : s.txPhase = .on) (ht : 1 ≤ s.txTimer) (hr : NoResetFor s.txTimer s) :
    edges s.txTimer s = .next (offPhaseAfter s) := by
  rw [edges_phase (by rw [hp]; decide) ht hr]
  exact pulseEdge_end_of_on (s := lastTick s) hp rfl _

theorem noResetFor_offPhaseAfter {v : Nat} (hr : NoResetFor (s.txTimer + v) s) : NoResetFor v (offPhaseAfter s) :=
  noResetFor_drop hr rfl

/-- A tick of the off-time, counted from the pulse's start. -/
theorem edges_into_off_phase (hp : s.txPhase = .on) (ht : 1 ≤ s.txTimer) {v : Nat}
    (hv : v < offTicks s.cfg (symbolAt s.txFrame s.txK)) (hr : NoResetFor (s.txTimer + v) s) :
    edges (s.txTimer + v) s = .next (ticksLater v (offPhaseAfter s)) := by
  rw [edges_add v (edges_on_phase hp ht (noResetFor_mono hr (Nat.le_add_right ..)))]
  exact edges_within_phase (by simp [offPhaseAfter]) hv (noResetFor_offPhaseAfter hr)

/-- The last tick of the off-time, counted from the pulse's start. -/
theorem edges_pulse (hp : s.txPhase = .on) (ht : 1 ≤ s.txTimer)
    (hoff : 1 ≤ offTicks s.cfg (symbolAt s.txFrame s.txK))
    (hr : NoResetFor (s.txTimer + offTicks s.cfg (symbolAt s.txFrame s.txK)) s) :
    edges (s.txTimer + offTicks s.cfg (symbolAt s.txFrame s.txK)) s =
      pulseEdge (symbolAt s.txFrame s.txK) (lastTick (offPhaseAfter s)) := by
  rw [edges_add _ (edges_on_phase hp ht (noResetFor_mono hr (Nat.le_add_right ..)))]
  exact edges_phase (s := offPhaseAfter s) (by simp [offPhaseAfter]) hoff (noResetFor_offPhaseAfter hr)

/-- Before the pulse's end: the line is high for the on-time, then low, and the symbol stays. -/
theorem edges_during_pulse (hp : s.txPhase = .on) (hline : s.ookOut = true) (hbusy : s.busy = true)
    (ht : 1 ≤ s.txTimer) {u : Nat} (hu : u < s.txTimer + offTicks s.cfg (symbolAt s.txFrame s.txK))
    (hr : NoResetFor u s) :
    ∃ t, edges u s = .next t ∧ t.ookOut = decide (u < s.txTimer) ∧ t.busy = true ∧ t.txK = s.txK ∧
      t.txFrame = s.txFrame := by
  obtain hon | hoff := Nat.lt_or_ge u s.txTimer
  · have hrunning : s.txPhase ≠ .idle := by rw [hp]; decide
    exact ⟨_, edges_within_phase hrunning hon hr, hline.trans (decide_eq_true hon).symm, hbusy, rfl, rfl⟩
  · obtain ⟨v, rfl⟩ := Nat.exists_eq_add_of_le hoff
    exact ⟨_, edges_into_off_phase hp ht (by omega) hr, (decide_eq_false (by omega)).symm, hbusy, rfl, rfl⟩

/-- The pulse's end: the next symbol's first tick, or the end of the transmission. -/
theorem edges_to_pulse_end (hp : s.txPhase = .on) (hline : s.ookOut = true) (ht : 1 ≤ s.txTimer)
    (hoff : 1 ≤ offTicks s.cfg (symbolAt s.txFrame s.txK)) {u : Nat}
    (hu : u = s.txTimer + offTicks s.cfg (symbolAt s.txFrame s.txK)) (hr : NoResetFor u s) :
    ∃ t, edges u s = .next t ∧
      (∀ k : Fin 34, k.val = s.txK.val + 1 →
        t = { s with txK := k, txTimer := onTicks s.cfg (symbolAt s.txFrame k), inputs := s.inputs.drop u }) ∧
      (s.txK.val = 33 → t.txPhase = .idle ∧ t.busy = false ∧ t.done = true ∧ t.ookOut = false) := by
  subst hu
  rw [edges_pulse hp ht hoff hr]
  obtain hstop | hmore := Nat.eq_or_lt_of_le (Nat.le_of_lt_succ s.txK.isLt)
  · have hend := pulseEdge_end_of_stop (s := lastTick (offPhaseAfter s)) rfl rfl hstop (symbolAt s.txFrame s.txK)
    refine ⟨_, hend, fun k hk => ?_, fun _ => ⟨rfl, rfl, rfl, rfl⟩⟩
    have := k.isLt
    omega
  · obtain ⟨k, hk⟩ : ∃ k : Fin 34, k.val = s.txK.val + 1 := ⟨⟨s.txK.val + 1, by omega⟩, rfl⟩
    have hnext := pulseEdge_next_symbol (s := lastTick (offPhaseAfter s)) rfl rfl hk (symbolAt s.txFrame s.txK)
    refine ⟨_, hnext, fun j hj => ?_, fun h33 => by omega⟩
    obtain rfl : j = k := Fin.ext (hj.trans hk.symm)
    simp [beginSymbol, lastTick, offPhaseAfter, hp, hline]

end

end Sys2Proof.Safety

namespace Sys2Proof.Proofs
open Sys2Proof.Machine Sys2Proof.Safety

/-- Settles O43: each symbol is one edge of a pulse, and an idle transmitter has none. -/
theorem pulseSymbolsOnIdleChangeNothing : Obligations.PulseSymbolsOnIdleChangeNothing := by
  unfold Obligations.PulseSymbolsOnIdleChangeNothing
  exact fun s hp => ⟨pulseEdge_of_idle hp .zero, pulseEdge_of_idle hp .one, pulseEdge_of_idle hp .start,
    pulseEdge_of_idle hp .stop⟩

/-- Settles O42: each symbol is one edge of a pulse with its own off-time. -/
theorem pulseSymbolsAdvanceOneEdge : Obligations.PulseSymbolsAdvanceOneEdge := by
  unfold Obligations.PulseSymbolsAdvanceOneEdge
  exact fun s hp ht => ⟨pulseEdge_eq_pulseTarget hp ht .zero, pulseEdge_eq_pulseTarget hp ht .one,
    pulseEdge_eq_pulseTarget hp ht .start, pulseEdge_eq_pulseTarget hp ht .stop⟩

/-- Settles O46: the on-time and the off-time are one phase each, and neither is empty in a legal record. -/
theorem onePulseFromStartToEnd : Obligations.OnePulseFromStartToEnd := by
  unfold Obligations.OnePulseFromStartToEnd
  intro s hlegal hp hline hbusy hon u hr
  obtain ⟨hon1, hoff1⟩ := one_le_phaseTicks hlegal (symbolAt s.txFrame s.txK)
  rw [← hon] at hon1 ⊢
  exact ⟨fun hu => edges_during_pulse hp hline hbusy hon1 hu hr, fun hu => edges_to_pulse_end hp hline hon1 hoff1 hu hr⟩

end Sys2Proof.Proofs
end

section
/-! The waveform's two descriptions, and how long the line is high (43_ook_tx.md R154). -/

namespace Sys2Proof.Machine

/-! ## The level inside a symbol's pulse -/

theorem symbolStart_succ (c : Config) (f : Frame) (k : Nat) :
    symbolStart c f (k + 1) = symbolStart c f k + onUs c (symbolAt f k) + offUs c (symbolAt f k) := rfl

theorem symbolStart_mono (c : Config) (f : Frame) : Monotone (symbolStart c f) :=
  monotone_nat_of_le_succ fun k => by rw [symbolStart_succ]; omega

theorem level_eq_true_iff {c : Config} {f : Frame} {u : Nat} :
    level c f u = true ↔ ∃ k < 34, symbolStart c f k ≤ u ∧ u < symbolStart c f k + onUs c (symbolAt f k) := by
  simp [level]

/-- In a symbol's pulse the line is high for its on-time and then low: no other symbol's on-time reaches into it. -/
theorem level_in_pulse (c : Config) (f : Frame) {k v : Nat} (hk : k < 34)
    (hv : v < onUs c (symbolAt f k) + offUs c (symbolAt f k)) :
    level c f (symbolStart c f k + v) = decide (v < onUs c (symbolAt f k)) := by
  rw [Bool.eq_iff_iff, level_eq_true_iff, decide_eq_true_eq]
  constructor
  · rintro ⟨j, -, hj, hju⟩
    have hjsucc := symbolStart_succ c f j
    have hksucc := symbolStart_succ c f k
    obtain hjk | rfl | hkj := Nat.lt_trichotomy j k
    · have hle : symbolStart c f (j + 1) ≤ symbolStart c f k := symbolStart_mono c f hjk
      omega
    · omega
    · have hle : symbolStart c f (k + 1) ≤ symbolStart c f j := symbolStart_mono c f hkj
      omega
  · exact fun hon => ⟨k, hk, by omega, by omega⟩

/-- After the frame the line is low. -/
theorem level_past_end {c : Config} {f : Frame} {u : Nat} (hu : totalUs c f ≤ u) : level c f u = false := by
  refine Bool.eq_false_iff.2 fun hlevel => ?_
  obtain ⟨k, hk, -, hku⟩ := level_eq_true_iff.1 hlevel
  have hsucc := symbolStart_succ c f k
  have hle : symbolStart c f (k + 1) ≤ totalUs c f := symbolStart_mono c f hk
  omega

/-! ## The list of segments -/

/-- The segments of one symbol (R154). -/
def segmentsOf (c : Config) (y : Symbol) : List (Bool × Nat) := [(true, onUs c y), (false, offUs c y)]

theorem wave_eq (c : Config) (f : Frame) : wave c f = (symbols f).flatMap (segmentsOf c) := rfl

theorem wave_length (c : Config) (f : Frame) : (wave c f).length = 68 := by
  rw [wave_eq, List.length_flatMap]
  simp [segmentsOf]

/-- Inside the first symbol of a list of segments its own pulse decides, and after it the rest. -/
theorem waveAt_segmentsOf_append (c : Config) (y : Symbol) (w : List (Bool × Nat)) (v : Nat) :
    waveAt (segmentsOf c y ++ w) v =
      if v < onUs c y + offUs c y then decide (v < onUs c y) else waveAt w (v - (onUs c y + offUs c y)) := by
  simp only [segmentsOf, List.cons_append, List.nil_append, waveAt]
  obtain hon | hon := Nat.lt_or_ge v (onUs c y)
  · rw [if_pos hon, if_pos (by omega), decide_eq_true hon]
  · rw [if_neg hon.not_gt, decide_eq_false hon.not_gt, Nat.sub_sub]
    exact if_congr (by omega) rfl rfl

/-- From the start of symbol `k` on, the segments of the symbols left give the level. -/
theorem waveAt_symbols_from (c : Config) (f : Frame) {k n : Nat} (hn : k + n = 34) (v : Nat) :
    waveAt (((List.range' k n).map (symbolAt f)).flatMap (segmentsOf c)) v = level c f (symbolStart c f k + v) := by
  induction n generalizing k v with
  | zero =>
    obtain rfl : k = 34 := hn
    exact (level_past_end (Nat.le_add_right ..)).symm
  | succ n ih =>
    rw [List.range'_succ, List.map_cons, List.flatMap_cons, waveAt_segmentsOf_append]
    split
    case isTrue hv => exact (level_in_pulse c f (by omega) hv).symm
    case isFalse hv =>
      rw [ih (by omega), symbolStart_succ]
      congr 1
      omega

theorem waveAt_wave (c : Config) (f : Frame) (u : Nat) : waveAt (wave c f) u = level c f u := by
  have h := waveAt_symbols_from c f (k := 0) (n := 34) rfl u
  rwa [← List.range_eq_range', show symbolStart c f 0 = 0 from rfl, Nat.zero_add] at h

/-! ## How long the line is high -/

/-- A symbol adds its on-time. -/
theorem countP_level_succ (c : Config) (f : Frame) {k : Nat} (hk : k < 34) :
    (List.range (symbolStart c f (k + 1))).countP (level c f) =
      (List.range (symbolStart c f k)).countP (level c f) + onUs c (symbolAt f k) := by
  have hhigh : (List.range (onUs c (symbolAt f k))).countP (level c f ∘ (symbolStart c f k + ·)) =
      onUs c (symbolAt f k) := by
    refine (List.countP_eq_length.2 fun v hv => ?_).trans List.length_range
    have hv := List.mem_range.1 hv
    exact (level_in_pulse c f hk (by omega)).trans (decide_eq_true hv)
  have hlow : (List.range (offUs c (symbolAt f k))).countP
      (level c f ∘ (symbolStart c f k + onUs c (symbolAt f k) + ·)) = 0 := by
    refine List.countP_eq_zero.2 fun v hv => Bool.eq_false_iff.1 ?_
    have hv := List.mem_range.1 hv
    rw [Function.comp_apply, Nat.add_assoc, level_in_pulse c f hk (by omega)]
    exact decide_eq_false (by omega)
  rw [symbolStart_succ, List.range_add, List.countP_append, List.range_add, List.countP_append, List.countP_map,
    List.countP_map, hhigh, hlow, Nat.add_zero]

theorem onUs_defaultConfig (y : Symbol) : onUs defaultConfig y = 500 := by
  cases y <;> rfl

theorem countP_level_defaultConfig (f : Frame) {k : Nat} (hk : k ≤ 34) :
    (List.range (symbolStart defaultConfig f k)).countP (level defaultConfig f) = 500 * k := by
  induction k with
  | zero => rfl
  | succ k ih => rw [countP_level_succ _ _ hk, ih (by omega), onUs_defaultConfig, Nat.mul_succ]

end Sys2Proof.Machine

namespace Sys2Proof.Proofs
open Sys2Proof.Machine

/-- Settles O48: symbol by symbol the list of segments gives the level of the symbol's pulse. -/
theorem waveAndLevelAgree : Obligations.WaveAndLevelAgree := by
  unfold Obligations.WaveAndLevelAgree
  exact fun c f u => ⟨wave_length c f, waveAt_wave c f u, level_past_end⟩

/-- Settles O49: each of the 34 symbols is high for 500 microseconds. -/
theorem lineIsHighSeventeenMilliseconds : Obligations.LineIsHighSeventeenMilliseconds := by
  unfold Obligations.LineIsHighSeventeenMilliseconds
  exact fun f => countP_level_defaultConfig f le_rfl

end Sys2Proof.Proofs
end

section
/-! What a step runs, and what it leaves alone (10_state.md R36, R37; 43_ook_tx.md R167). -/

namespace Sys2Proof.Machine

/-! ## The word fetched -/

theorem step_of_fetchWord {s : State} {w : CodeWord} (h : fetchWord s = some w) :
    step s = exec (decode w) (afterEdge s) := by
  obtain ⟨hr, -⟩ := fetchWord_some h
  simp [step, hr, h]

theorem step_of_no_word {s : State} (hr : (portIn s).rst = false) (h : fetchWord s = none) :
    step s = .next (afterEdge s) := by
  simp [step, hr, h]

theorem fetchWord_of_no_command {s : State} (hp : s.txPhase = .idle) (hv : (portIn s).cmdValid = false) :
    fetchWord s = none := by
  simp [fetchWord, hp, hv]

/-- A block that is not ready fetches nothing but the current symbol (R36, R37). -/
theorem fetchWord_of_not_ready {s : State} (hc : cmdReady s = false) :
    fetchWord s =
      if (portIn s).rst = false ∧ s.txPhase ≠ .idle then some (.sym (symbolCode (symbolAt s.txFrame s.txK)))
      else none := by
  cases hr : (portIn s).rst <;> simp [fetchWord, hr, hc]

theorem fetchWord_ne_command_of_not_ready {s : State} (hc : cmdReady s = false) (w : Command) :
    fetchWord s ≠ some (.cmd w) := by
  rw [fetchWord_of_not_ready hc]
  split <;> simp

theorem fetchWord_of_idle_not_ready {s : State} (hp : s.txPhase = .idle) (hc : cmdReady s = false) :
    fetchWord s = none := by
  rw [fetchWord_of_not_ready hc, if_neg fun h => h.2 hp]

/-- A faulted block is not ready (R29, R36). -/
theorem cmdReady_of_fault {s : State} (hf : s.fault ≠ 0) : cmdReady s = false := by
  simpa [cmdReady] using fun _ => hf

/-! ## What the pulses leave alone -/

/-- The pulses touch nothing outside the transmitter but the flags `busy` and `done`. -/
theorem pulseEdge_keeps {y : Symbol} {s t : State} (h : pulseEdge y s = .next t) :
    t.cfg = s.cfg ∧ t.tbl = s.tbl ∧ t.res = s.res ∧ t.txFrame = s.txFrame ∧ t.inputs = s.inputs := by
  rcases pulseEdge_next h with ⟨-, rfl⟩ | ⟨-, -, rfl⟩ | ⟨-, -, rfl⟩ | ⟨-, -, k, -, rfl⟩ | ⟨-, -, -, rfl⟩ <;> simp

/-- An edge of a pulse ends the transmission only at the last tick of Stop's off-time (R167). -/
theorem pulseEdge_to_idle {y : Symbol} {s t : State} (h : pulseEdge y s = .next t) (hp : s.txPhase ≠ .idle)
    (ht : t.txPhase = .idle) : s.txPhase = .off ∧ s.txTimer = 1 ∧ s.txK.val = 33 := by
  rcases pulseEdge_next h with ⟨hidle, -⟩ | ⟨-, -, rfl⟩ | ⟨-, -, rfl⟩ | ⟨-, -, k, -, rfl⟩ | ⟨hoff, hlast, hk, -⟩
  · exact absurd hidle hp
  · exact absurd ht hp
  · cases ht
  · cases ht
  · exact ⟨hoff, hlast, hk⟩

/-! ## What the instructions leave alone -/

/-- BUILD is the only instruction that writes the table, and only where none is built (20_memory.md R51, R61). -/
theorem exec_keeps_tbl {i : Instr} {s t : State} (h : exec i s = .next t) :
    t.tbl = s.tbl ∨ (i = .build ∧ s.tableValid = false) := by
  have pulse : ∀ y, pulseEdge y s = .next t → t.tbl = s.tbl := fun y h => by
    obtain ⟨-, htbl, -⟩ := pulseEdge_keeps h
    exact htbl
  cases i with
  | build =>
    rcases execBuild_next h with ⟨-, rfl⟩ | ⟨hv, -⟩
    · exact .inl rfl
    · exact .inr ⟨rfl, hv⟩
  | hash data off => rcases execHash_next h with ⟨-, rfl⟩ | ⟨-, b, -, rfl⟩ | ⟨-, -, rfl⟩ <;> exact .inl rfl
  | convert reg => cases h; exact .inl rfl
  | generate id ok temp => rcases execGenerate_next h with ⟨-, rfl⟩ | ⟨-, b, -, rfl⟩ | ⟨-, -, rfl⟩ <;> exact .inl rfl
  | transmit b0 b1 b2 b3 => cases h; exact .inl rfl
  | reserved5 => cases h; exact .inl rfl
  | reserved6 => cases h; exact .inl rfl
  | reserved7 => cases h; exact .inl rfl
  | zero => exact .inl (pulse .zero h)
  | one => exact .inl (pulse .one h)
  | start => exact .inl (pulse .start h)
  | stop => exact .inl (pulse .stop h)

/-- TRANSMIT is the only instruction that changes the latched frame of an idle transmitter, to its four bytes (R30). -/
theorem exec_keeps_txFrame {i : Instr} {s t : State} (h : exec i s = .next t) (hp : s.txPhase = .idle) :
    t.txFrame = s.txFrame ∨ ∃ b0 b1 b2 b3, i = .transmit b0 b1 b2 b3 ∧ t.txFrame = b0 ++ b1 ++ b2 ++ b3 := by
  by_cases hi : ∃ b0 b1 b2 b3, i = .transmit b0 b1 b2 b3
  · obtain ⟨b0, b1, b2, b3, rfl⟩ := hi
    cases h
    exact .inr ⟨b0, b1, b2, b3, rfl, rfl⟩
  · obtain ⟨-, -, hframe, -⟩ :=
      exec_keeps_idle_transmitter h hp fun b0 b1 b2 b3 e => hi ⟨b0, b1, b2, b3, e⟩
    exact .inl hframe

end Sys2Proof.Machine

namespace Sys2Proof.Proofs
open Sys2Proof.Machine

/-- Settles O10: a faulted block is not ready, and no pulse writes `fault`. -/
theorem faultIsStickyUntilReset : Obligations.FaultIsStickyUntilReset := by
  unfold Obligations.FaultIsStickyUntilReset
  intro s hf hr
  have hc := cmdReady_of_fault hf
  refine ⟨fetchWord_ne_command_of_not_ready hc, fun t h => ?_⟩
  obtain ⟨hrst, -⟩ | ⟨-, -, rfl⟩ | ⟨-, -, hpulse⟩ | ⟨-, -, -, hready, -⟩ := step_next h
  · rw [hr] at hrst
    cases hrst
  · rfl
  · exact pulseEdge_keeps_fault (s := afterEdge s) hpulse
  · rw [hc] at hready
    cases hready

/-- Settles O12: by what the step runs. -/
theorem recordIsNeverWritten : Obligations.RecordIsNeverWritten := by
  unfold Obligations.RecordIsNeverWritten
  intro s t h
  obtain ⟨-, rfl⟩ | ⟨-, -, rfl⟩ | ⟨-, -, hpulse⟩ | ⟨-, -, -, -, hexec⟩ := step_next h
  · exact ⟨rfl, rfl⟩
  · exact ⟨rfl, rfl⟩
  · obtain ⟨hcfg, -, -, -, hinputs⟩ := pulseEdge_keeps hpulse
    exact ⟨hcfg, hinputs⟩
  · exact exec_keeps_cfg_inputs hexec

/-- Settles O23: by what the step runs; of the commands only BUILD writes the table. -/
theorem onlyBuildWritesTheTable : Obligations.OnlyBuildWritesTheTable := by
  unfold Obligations.OnlyBuildWritesTheTable
  intro s t h hr hne
  obtain ⟨hrst, -⟩ | ⟨-, -, rfl⟩ | ⟨-, -, hpulse⟩ | ⟨-, hp, hv, hc, hexec⟩ := step_next h
  · rw [hr] at hrst
    cases hrst
  · exact absurd rfl hne
  · obtain ⟨-, htbl, -⟩ := pulseEdge_keeps hpulse
    exact absurd htbl hne
  · obtain htbl | ⟨hbuild, hinvalid⟩ := exec_keeps_tbl hexec
    · exact absurd htbl hne
    · exact ⟨hinvalid, _, fetchWord_command hr hp hv hc, hbuild⟩

/-- Settles O51: without reset a running transmission takes one edge of a pulse. -/
theorem onlyResetCutsATransmission : Obligations.OnlyResetCutsATransmission := by
  unfold Obligations.OnlyResetCutsATransmission
  intro s t h hp ht
  obtain ⟨hrst, -⟩ | ⟨-, -, rfl⟩ | ⟨-, -, hpulse⟩ | ⟨-, hidle, -⟩ := step_next h
  · exact .inl hrst
  · exact absurd ht hp
  · exact .inr (pulseEdge_to_idle (s := afterEdge s) hpulse hp ht)
  · exact absurd hidle hp

/-- Settles O52: the pulses keep the frame, and of the commands only TRANSMIT latches one. -/
theorem frameStaysLatched : Obligations.FrameStaysLatched := by
  unfold Obligations.FrameStaysLatched
  intro s t h hr hne
  obtain ⟨hrst, -⟩ | ⟨-, -, rfl⟩ | ⟨-, -, hpulse⟩ | ⟨-, hp, hv, hc, hexec⟩ := step_next h
  · rw [hr] at hrst
    cases hrst
  · exact absurd rfl hne
  · obtain ⟨-, -, -, hframe, -⟩ := pulseEdge_keeps hpulse
    exact absurd hframe hne
  · obtain hframe | ⟨b0, b1, b2, b3, htransmit, hframe⟩ := exec_keeps_txFrame hexec hp
    · exact absurd hframe hne
    · exact ⟨hp, _, b0, b1, b2, b3, fetchWord_command hr hp hv hc, htransmit, hframe⟩

/-- Settles O60: the frame of every other instruction on an idle transmitter. -/
theorem onlyTransmitStartsTheTransmitter : Obligations.OnlyTransmitStartsTheTransmitter := by
  unfold Obligations.OnlyTransmitStartsTheTransmitter
  intro i s t h hp hi
  obtain ⟨hbusy, hphase, hrest⟩ := exec_keeps_idle_transmitter h hp hi
  exact ⟨hbusy, hphase.trans hp, hrest⟩

/-- Settles O4: no reset goes before a word that is fetched. -/
theorem stepRunsTheDecodedInstruction : Obligations.StepRunsTheDecodedInstruction := by
  unfold Obligations.StepRunsTheDecodedInstruction
  rintro s w i hw rfl
  exact step_of_fetchWord hw

/-- Settles O5: an idle block without a fault is ready. -/
theorem acceptedCommandRuns : Obligations.AcceptedCommandRuns := by
  unfold Obligations.AcceptedCommandRuns
  exact fun s hp hb hf hr hv => step_of_command hr hp hv (cmdReady_eq_true hb hf)

/-- Settles O6: nothing is fetched. -/
theorem nothingChangesWithoutACommand : Obligations.NothingChangesWithoutACommand := by
  unfold Obligations.NothingChangesWithoutACommand
  exact fun s hp hr hv => step_of_no_word hr (fetchWord_of_no_command hp hv)

/-- Settles O8: the read-back port shows 0 since no table is built; the rest is written in the reset state. -/
theorem resetStateHasResetValues : Obligations.ResetStateHasResetValues := by
  unfold Obligations.ResetStateHasResetValues
  exact ⟨rfl, rfl, rfl, rfl, rfl, rfl, rfl, cmdReady_eq_true rfl rfl, tblRdata_of_not_tableValid rfl, rfl⟩

/-- Settles O9: what a block that is not ready fetches depends on `rst` alone of the ports. -/
theorem commandPortIsIgnoredUnlessReady : Obligations.CommandPortIsIgnoredUnlessReady := by
  unfold Obligations.CommandPortIsIgnoredUnlessReady
  intro s p p' rest hr hc
  have hword : fetchWord { s with inputs := p :: rest } = fetchWord { s with inputs := p' :: rest } := by
    rw [fetchWord_of_not_ready (s := { s with inputs := p :: rest }) hc,
      fetchWord_of_not_ready (s := { s with inputs := p' :: rest }) hc]
    cases p
    cases p'
    cases hr
    rfl
  exact step_congr hr hword rfl

/-- Settles O11: in the invariant a faulted block is idle, and it is not ready, so it fetches nothing. -/
theorem faultedBlockStaysAsItIs : Obligations.FaultedBlockStaysAsItIs := by
  unfold Obligations.FaultedBlockStaysAsItIs
  intro s hs hf hr
  obtain ⟨-, -, -, hbusy, -, -, hfault, -⟩ := hs
  have hidle : s.txPhase = .idle := by
    by_contra hp
    exact absurd (hbusy.2 hp) (Bool.eq_false_iff.1 (hfault hf))
  exact step_of_no_word hr (fetchWord_of_idle_not_ready hidle (cmdReady_of_fault hf))

end Sys2Proof.Proofs
end

section
/-! The invariant (10_state.md R40): it holds after reset, every step keeps it, and in it every step answers. -/

namespace Sys2Proof.Safety
open Sys2Proof.Machine

/-! ## The parts of the invariant -/

/-- The part about the record and the table (R40 c). -/
abbrev StorageInv (s : State) : Prop :=
  s.cfg.Legal ∧ s.tbl.wf ∧ (∀ e ∈ s.tbl, e.1 < s.cfg.tableSize) ∧ (s.tableValid = true → TableHolds s (builtTable s.cfg))

/-- The part about the transmitter (R40 a, b, e). -/
abbrev TxInv (s : State) : Prop :=
  (s.busy = true ↔ s.txPhase ≠ .idle) ∧ (s.ookOut = true ↔ s.txPhase = .on) ∧
  (s.txPhase ≠ .idle → 1 ≤ s.txTimer ∧ s.txTimer ≤ phaseTicks s)

/-- The part about `fault` and `done` (R40 d, R28, R181). -/
abbrev FlagInv (s : State) : Prop :=
  (s.fault ≠ 0 → s.busy = false) ∧ s.fault.toNat ≤ 4 ∧ (s.busy = true → s.done = false) ∧ (s.fault ≠ 0 → s.done = false)

theorem stateInv_iff {s : State} : StateInv s ↔ StorageInv s ∧ TxInv s ∧ FlagInv s := by
  constructor
  · rintro ⟨hlegal, hwf, hbelow, hbusy, hline, htable, hidle, htimer, hcode, hdone, hdoneFault⟩
    exact ⟨⟨hlegal, hwf, hbelow, htable⟩, ⟨hbusy, hline, htimer⟩, hidle, hcode, hdone, hdoneFault⟩
  · rintro ⟨⟨hlegal, hwf, hbelow, htable⟩, ⟨hbusy, hline, htimer⟩, hidle, hcode, hdone, hdoneFault⟩
    exact ⟨hlegal, hwf, hbelow, hbusy, hline, htable, hidle, htimer, hcode, hdone, hdoneFault⟩

theorem TxInv.busy_of_idle {s : State} (h : TxInv s) (hp : s.txPhase = .idle) : s.busy = false := by
  obtain ⟨hbusy, -⟩ := h
  exact Bool.eq_false_iff.2 fun hb => hbusy.1 hb hp

/-- While a transmission runs no fault is held. -/
theorem fault_of_running {s : State} (htx : TxInv s) (hflag : FlagInv s) (hp : s.txPhase ≠ .idle) : s.fault = 0 := by
  obtain ⟨hidle, -⟩ := hflag
  obtain ⟨hbusy, -⟩ := htx
  by_contra hf
  exact absurd (hbusy.2 hp) (Bool.eq_false_iff.1 (hidle hf))

/-- Where no fault is held only `done` during a transmission matters. -/
theorem flagInv_of_no_fault {s : State} (hf : s.fault = 0) (hdone : s.busy = true → s.done = false) : FlagInv s :=
  ⟨fun h => absurd hf h, by rw [hf]; decide, hdone, fun h => absurd hf h⟩

/-! ## Reset -/

theorem stateInv_resetBlock {s : State} (hlegal : s.cfg.Legal) : StateInv (resetBlock s) :=
  stateInv_iff.2 ⟨⟨hlegal, List.Pairwise.nil, by simp, by simp⟩, ⟨by simp, by simp, by simp⟩,
    flagInv_of_no_fault rfl fun _ => rfl⟩

/-! ## The commands -/

section
variable {s : State}

theorem stateInv_raiseFault (hs : StateInv s) (hp : s.txPhase = .idle) (e : ErrCode) : StateInv (raiseFault e s) := by
  obtain ⟨hstorage, htx, -⟩ := stateInv_iff.1 hs
  have hcode : e.code.toNat ≤ 4 := by cases e <;> decide
  exact stateInv_iff.2 ⟨hstorage, htx, fun _ => htx.busy_of_idle hp, hcode, fun _ => rfl, fun _ => rfl⟩

/-- HASH, GENERATE and CONVERT write results, which the invariant does not speak of, and set `done`. -/
theorem stateInv_complete_results (hs : StateInv s) (hp : s.txPhase = .idle) (hf : s.fault = 0) (acc : Byte)
    (res : BitVec 32) : StateInv (complete { accept s with acc := acc, res := res }) := by
  obtain ⟨hstorage, htx, -⟩ := stateInv_iff.1 hs
  exact stateInv_iff.2 ⟨hstorage, htx, flagInv_of_no_fault hf fun hb => by simp [htx.busy_of_idle hp] at hb⟩

/-- BUILD writes every index below TABLE_SIZE and no other. -/
theorem storageInv_build (hs : StorageInv s) :
    StorageInv { s with tbl := s.tbl.writeRange 0 (builtTable s.cfg), tableValid := true } := by
  obtain ⟨hlegal, hwf, hbelow, -⟩ := hs
  have hlen : (builtTable s.cfg).length = s.cfg.tableSize := lfsrTable_length ..
  refine ⟨hlegal, Memory.wf_writeRange _ _ hwf, fun e he => ?_, fun _ => ⟨hlen, fun i hi => ?_⟩⟩
  · obtain hnew | hold := Memory.mem_writeRange he
    · show e.1 < s.cfg.tableSize
      omega
    · exact hbelow e hold
  · simpa using Memory.read_writeRange (m := s.tbl) (i := 0) hi

theorem stateInv_build (hs : StateInv s) (hp : s.txPhase = .idle) (hf : s.fault = 0) (lfsr : Byte) :
    StateInv (complete { accept s with
      tbl := s.tbl.writeRange 0 (builtTable s.cfg)
      lfsr := lfsr
      tableValid := true }) := by
  obtain ⟨hstorage, htx, -⟩ := stateInv_iff.1 hs
  exact stateInv_iff.2
    ⟨storageInv_build hstorage, htx, flagInv_of_no_fault hf fun hb => by simp [htx.busy_of_idle hp] at hb⟩

/-- TRANSMIT begins the Start pulse with its whole on-time. -/
theorem stateInv_transmit (hs : StateInv s) (hf : s.fault = 0) {t : State} {b0 b1 b2 b3 : Byte}
    (h : exec (.transmit b0 b1 b2 b3) s = .next t) : StateInv t := by
  obtain ⟨hstorage, -, -⟩ := stateInv_iff.1 hs
  have hlegal : s.cfg.Legal := hstorage.1
  cases h
  refine stateInv_iff.2 ⟨hstorage, ⟨by simp, by simp, fun _ => ⟨?_, le_rfl⟩⟩, flagInv_of_no_fault hf fun _ => rfl⟩
  exact (one_le_phaseTicks hlegal .start).1

/-- An accepted command keeps the invariant. -/
theorem stateInv_exec {t : State} {i : Instr} (hs : StateInv s) (hp : s.txPhase = .idle) (hf : s.fault = 0)
    (h : exec i s = .next t) : StateInv t := by
  have pulse : ∀ y, pulseEdge y s = .next t → StateInv t := fun y h => by
    rw [pulseEdge_of_idle hp] at h
    cases h
    exact hs
  cases i with
  | build =>
    rcases execBuild_next h with ⟨-, rfl⟩ | ⟨-, rfl⟩
    · exact stateInv_raiseFault hs hp _
    · exact stateInv_build hs hp hf _
  | hash data off =>
    rcases execHash_next h with ⟨-, rfl⟩ | ⟨-, b, -, rfl⟩ | ⟨-, -, rfl⟩
    · exact stateInv_raiseFault hs hp _
    · exact stateInv_complete_results hs hp hf _ _
    · exact stateInv_raiseFault hs hp _
  | convert reg => cases h; exact stateInv_complete_results hs hp hf _ _
  | generate id ok temp =>
    rcases execGenerate_next h with ⟨-, rfl⟩ | ⟨-, b, -, rfl⟩ | ⟨-, -, rfl⟩
    · exact stateInv_raiseFault hs hp _
    · exact stateInv_complete_results hs hp hf _ _
    · exact stateInv_raiseFault hs hp _
  | transmit b0 b1 b2 b3 => exact stateInv_transmit hs hf h
  | reserved5 => cases h; exact stateInv_raiseFault hs hp _
  | reserved6 => cases h; exact stateInv_raiseFault hs hp _
  | reserved7 => cases h; exact stateInv_raiseFault hs hp _
  | zero => exact pulse .zero h
  | one => exact pulse .one h
  | start => exact pulse .start h
  | stop => exact pulse .stop h

/-! ## The pulses -/

/-- An edge of the current symbol's pulse keeps the invariant: each phase begins with its own whole duration. -/
theorem stateInv_pulseEdge {t : State} (hs : StateInv s) (hp : s.txPhase ≠ .idle)
    (h : pulseEdge (symbolAt s.txFrame s.txK) s = .next t) : StateInv t := by
  obtain ⟨hstorage, htx, hflag⟩ := stateInv_iff.1 hs
  have hf := fault_of_running htx hflag hp
  have hlegal : s.cfg.Legal := hstorage.1
  obtain ⟨hbusy, hline, htimer⟩ := htx
  obtain ⟨-, -, hdone, -⟩ := hflag
  rcases pulseEdge_next h with ⟨hidle, -⟩ | ⟨-, hmore, rfl⟩ | ⟨-, -, rfl⟩ | ⟨-, -, k, -, rfl⟩ | ⟨hoff, -, -, rfl⟩
  · exact absurd hidle hp
  · have hle : s.txTimer - 1 ≤ phaseTicks s := (Nat.sub_le ..).trans (htimer hp).2
    exact stateInv_iff.2
      ⟨hstorage, ⟨hbusy, hline, fun _ => ⟨Nat.le_sub_one_of_lt hmore, hle⟩⟩, flagInv_of_no_fault hf hdone⟩
  · exact stateInv_iff.2 ⟨hstorage,
      ⟨by simp [hbusy.2 hp], by simp, fun _ => ⟨(one_le_phaseTicks hlegal _).2, le_rfl⟩⟩, flagInv_of_no_fault hf hdone⟩
  · exact stateInv_iff.2 ⟨hstorage,
      ⟨by simp [hbusy.2 hp], by simp, fun _ => ⟨(one_le_phaseTicks hlegal _).1, le_rfl⟩⟩, flagInv_of_no_fault hf hdone⟩
  · have hlow : s.ookOut = false := Bool.eq_false_iff.2 fun hhigh => by simp [hline.1 hhigh] at hoff
    exact stateInv_iff.2 ⟨hstorage, ⟨by simp, by simp [hlow], fun h => absurd rfl h⟩,
      flagInv_of_no_fault hf fun hb => absurd hb Bool.false_ne_true⟩

end

/-! ## The step -/

theorem stateInv_step {s t : State} (hs : StateInv s) (h : step s = .next t) : StateInv t := by
  have hedge : StateInv (afterEdge s) := hs
  obtain ⟨-, rfl⟩ | ⟨-, -, rfl⟩ | ⟨-, hp, hpulse⟩ | ⟨-, hp, -, hc, hexec⟩ := step_next h
  · obtain ⟨hlegal, -⟩ := hs
    exact stateInv_resetBlock hlegal
  · exact hedge
  · exact stateInv_pulseEdge hedge hp hpulse
  · exact stateInv_exec hedge hp (fault_of_cmdReady (s := s) hc) hexec

/-! ## Every step answers -/

theorem exists_next_withChecksum {s : State} {T : List Byte} (hT : TableHolds s T) (data : List Byte) (off : Nat)
    (k : Byte → State) : ∃ t, withChecksum s data off k = .next t := by
  by_cases hin : IndicesBelow data off T.length
  · exact ⟨_, withChecksum_of_ok ((hashTbl_of_tableHolds hT data off).trans (hash_of_indicesBelow hin)) k⟩
  · exact ⟨_, withChecksum_of_outOfRange ((hashTbl_of_tableHolds hT data off).trans (hash_of_not_indicesBelow hin)) k⟩

/-- On an idle transmitter only the applicator could stop the model, and over a built table it does not. -/
theorem exists_next_exec {s : State} {T : List Byte} (hT : s.tableValid = true → TableHolds s T) (hp : s.txPhase = .idle)
    (i : Instr) : ∃ t, exec i s = .next t := by
  cases i with
  | build =>
    cases hv : s.tableValid with
    | false => exact ⟨_, exec_build_of_not_tableValid hv⟩
    | true => exact ⟨_, exec_build_of_tableValid hv⟩
  | hash data off =>
    cases hv : s.tableValid with
    | false => exact ⟨_, exec_hash_of_not_tableValid hv data off⟩
    | true =>
      rw [exec_hash_of_tableValid hv]
      exact exists_next_withChecksum (s := accept s) (hT hv) _ _ _
  | convert reg => exact ⟨_, rfl⟩
  | generate id ok temp =>
    cases hv : s.tableValid with
    | false => exact ⟨_, exec_generate_of_not_tableValid hv id ok temp⟩
    | true =>
      rw [exec_generate_of_tableValid hv]
      exact exists_next_withChecksum (s := accept s) (hT hv) _ _ _
  | transmit b0 b1 b2 b3 => exact ⟨_, rfl⟩
  | reserved5 => exact ⟨_, rfl⟩
  | reserved6 => exact ⟨_, rfl⟩
  | reserved7 => exact ⟨_, rfl⟩
  | zero => exact ⟨_, pulseEdge_of_idle hp .zero⟩
  | one => exact ⟨_, pulseEdge_of_idle hp .one⟩
  | start => exact ⟨_, pulseEdge_of_idle hp .start⟩
  | stop => exact ⟨_, pulseEdge_of_idle hp .stop⟩

theorem exists_next_step {s : State} (hs : StateInv s) : ∃ t, step s = .next t := by
  obtain ⟨⟨-, -, -, htable⟩, ⟨-, -, htimer⟩, -⟩ := stateInv_iff.1 hs
  cases hr : (portIn s).rst with
  | true => exact ⟨_, step_of_rst hr⟩
  | false =>
    by_cases hp : s.txPhase = .idle
    · cases hw : fetchWord s with
      | none => exact ⟨_, step_of_no_word hr hw⟩
      | some w =>
        rw [step_of_fetchWord hw]
        exact exists_next_exec (s := afterEdge s) htable hp _
    · rw [step_of_running hr hp]
      obtain ⟨hpos, -⟩ := htimer hp
      exact ⟨_, pulseEdge_eq_pulseTarget (s := afterEdge s) hp hpos _⟩

/-! ## The bound of R40 (e) -/

theorem phaseTicks_defaultConfig_le {s : State} (hc : s.cfg = defaultConfig) : phaseTicks s ≤ 9000 := by
  have hon : ∀ y, onTicks defaultConfig y ≤ 9000 := fun y => by cases y <;> decide
  have hoff : ∀ y, offTicks defaultConfig y ≤ 9000 := fun y => by cases y <;> decide
  rw [phaseTicks, hc]
  split
  · exact Nat.zero_le _
  · exact hon _
  · exact hoff _

end Sys2Proof.Safety

namespace Sys2Proof.Proofs
open Sys2Proof.Machine Sys2Proof.Safety

/-- Settles O14: by what the step runs. -/
theorem stepKeepsTheInvariant : Obligations.StepKeepsTheInvariant := by
  unfold Obligations.StepKeepsTheInvariant
  exact fun _ _ hs h => stateInv_step hs h

/-- Settles O13: the applicator reads a built table, and a running transmission's timer is at least 1. -/
theorem stepAlwaysAnswersANextState : Obligations.StepAlwaysAnswersANextState := by
  unfold Obligations.StepAlwaysAnswersANextState
  exact fun _ hs => exists_next_step hs

/-- Settles O15: the reset state is what `resetBlock` leaves of itself. -/
theorem resetMeetsTheInvariant : Obligations.ResetMeetsTheInvariant := by
  unfold Obligations.ResetMeetsTheInvariant
  exact fun c drive hlegal => stateInv_resetBlock (s := { State.reset with cfg := c, inputs := drive }) hlegal

/-- Settles O16: no phase of the default record is longer. -/
theorem timerStaysWithinNineThousand : Obligations.TimerStaysWithinNineThousand := by
  unfold Obligations.TimerStaysWithinNineThousand
  intro s hs hc hp
  obtain ⟨-, ⟨-, -, htimer⟩, -⟩ := stateInv_iff.1 hs
  obtain ⟨hpos, hle⟩ := htimer hp
  exact ⟨hpos, hle.trans (phaseTicks_defaultConfig_le hc)⟩

end Sys2Proof.Proofs
end

section
/-! Taking a fault, the flag `done` and the result register (60_exceptions.md R181 to R183, 10_state.md R26, R28). -/

namespace Sys2Proof.Machine

/-! ## Taking a fault -/

theorem ErrCode.code_ne_zero (e : ErrCode) : e.code ≠ 0 := by
  cases e <;> decide

/-- An instruction that answers either keeps `fault` or takes a fault and does nothing else (R183). -/
theorem exec_keeps_fault_or_raises {i : Instr} {s t : State} (h : exec i s = .next t) :
    t.fault = s.fault ∨ ∃ e, t = raiseFault e s := by
  cases i with
  | build =>
    rcases execBuild_next h with ⟨-, rfl⟩ | ⟨-, rfl⟩
    · exact .inr ⟨_, rfl⟩
    · exact .inl rfl
  | hash data off =>
    rcases execHash_next h with ⟨-, rfl⟩ | ⟨-, b, -, rfl⟩ | ⟨-, -, rfl⟩
    · exact .inr ⟨_, rfl⟩
    · exact .inl rfl
    · exact .inr ⟨.range, rfl⟩
  | convert reg => cases h; exact .inl rfl
  | generate id ok temp =>
    rcases execGenerate_next h with ⟨-, rfl⟩ | ⟨-, b, -, rfl⟩ | ⟨-, -, rfl⟩
    · exact .inr ⟨_, rfl⟩
    · exact .inl rfl
    · exact .inr ⟨.range, rfl⟩
  | transmit b0 b1 b2 b3 => cases h; exact .inl rfl
  | reserved5 => cases h; exact .inr ⟨_, rfl⟩
  | reserved6 => cases h; exact .inr ⟨_, rfl⟩
  | reserved7 => cases h; exact .inr ⟨_, rfl⟩
  | zero => exact .inl (pulseEdge_keeps_fault (y := .zero) h)
  | one => exact .inl (pulseEdge_keeps_fault (y := .one) h)
  | start => exact .inl (pulseEdge_keeps_fault (y := .start) h)
  | stop => exact .inl (pulseEdge_keeps_fault (y := .stop) h)

/-- A command that the host may issue takes no fault (60_exceptions.md R199 a, e). -/
theorem faultOf_of_allowed {s : State} {i : Instr} (h : Safety.commandAllowed s i = true) : Safety.faultOf s i = 0 := by
  cases i with
  | build =>
    have hv : s.tableValid = false := by simpa [Safety.commandAllowed] using h
    simp [Safety.faultOf, hv]
  | hash data off =>
    simp only [Safety.commandAllowed, Bool.and_eq_true, Bool.or_eq_true, decide_eq_true_eq] at h
    obtain ⟨hv, hroom⟩ := h
    rw [Safety.faultOf, if_pos hv, if_pos (Safety.indicesBelow_of_allowed hroom)]
  | generate id ok temp =>
    have hv : s.tableValid = true := h
    simp [Safety.faultOf, hv]
  | convert reg => rfl
  | transmit b0 b1 b2 b3 => rfl
  | reserved5 => cases h
  | reserved6 => cases h
  | reserved7 => cases h
  | zero => rfl
  | one => rfl
  | start => rfl
  | stop => rfl

/-! ## The flag `done` -/

/-- A fault taken leaves `done` at 0, and no fault code is 0 (R183, R181). -/
theorem done_of_raiseFault (e : ErrCode) (s : State) :
    (raiseFault e s).done = decide ((raiseFault e s).fault = 0) :=
  (decide_eq_false e.code_ne_zero).symm

theorem done_of_complete {s : State} (hf : s.fault = 0) : (complete s).done = decide ((complete s).fault = 0) :=
  (decide_eq_true hf).symm

/-- A pulse writes `done` only where it ends the transmission (R161). -/
theorem pulseEdge_keeps_done {y : Symbol} {s t : State} (h : pulseEdge y s = .next t) (ht : t.txPhase ≠ .idle) :
    t.done = s.done := by
  rcases pulseEdge_next h with ⟨-, rfl⟩ | ⟨-, -, rfl⟩ | ⟨-, -, rfl⟩ | ⟨-, -, k, -, rfl⟩ | ⟨-, -, -, rfl⟩
  · rfl
  · rfl
  · rfl
  · rfl
  · exact absurd rfl ht

/-! ## The result register -/

/-- The bits above a zero-extended field are 0. -/
theorem extract_setWidth_above {n m l : Nat} (x : BitVec n) : (x.setWidth m).extractLsb' n l = 0#l := by
  refine BitVec.eq_of_getLsbD_eq fun i hi => ?_
  rw [BitVec.getLsbD_extractLsb', BitVec.getLsbD_setWidth, BitVec.getLsbD_of_ge x _ (Nat.le_add_right n i),
    Bool.and_false, Bool.and_false, BitVec.getLsbD_zero]

end Sys2Proof.Machine

namespace Sys2Proof.Proofs
open Sys2Proof.Machine Sys2Proof.Safety

/-- Settles O55: an instruction that changes `fault` is one that raises it. -/
theorem faultEntryChangesNothingElse : Obligations.FaultEntryChangesNothingElse := by
  unfold Obligations.FaultEntryChangesNothingElse
  intro i s t h hne
  obtain hkeeps | ⟨e, rfl⟩ := exec_keeps_fault_or_raises h
  · exact absurd hkeeps hne
  · exact ⟨rfl, cmdReady_of_fault (s := raiseFault e s) e.code_ne_zero⟩

/-- Settles O56: the fault that a step leaves is the fault table's for the accepted command, and an allowed command has
none. -/
theorem dutiesKeepTheBlockFaultFree : Obligations.DutiesKeepTheBlockFaultFree := by
  unfold Obligations.DutiesKeepTheBlockFaultFree
  intro s t hs hf hduties h
  by_cases hcmd : (portIn s).rst = false ∧ s.txPhase = .idle ∧ (portIn s).cmdValid = true
  · obtain ⟨hr, hp, hv⟩ := hcmd
    obtain ⟨-, htx, -⟩ := stateInv_iff.1 hs
    obtain ⟨hissued, -⟩ := hduties hr hv
    have hallowed := hissued (cmdReady_eq_true (htx.busy_of_idle hp) hf)
    exact (step_fault_of_command hs hf h hr hp hv).trans (faultOf_of_allowed hallowed)
  · exact step_fault_of_no_command hf h hcmd

/-- Settles O57: CONVERT and TRANSMIT write no fault; with the room that the record gives the body, GENERATE takes the
fault table's code, which is E_NOTABLE or none; a running transmission takes edges of pulses. -/
theorem convertTransmitAndPulsesNeverFault : Obligations.ConvertTransmitAndPulsesNeverFault := by
  unfold Obligations.ConvertTransmitAndPulsesNeverFault
  refine ⟨fun s reg => ⟨_, exec_convert reg s, rfl⟩, fun s b0 b1 b2 b3 => ⟨_, exec_transmit b0 b1 b2 b3 s, rfl⟩,
    fun s t id ok temp hs hf h => ?_, fun s t hp hr h => ?_⟩
  · obtain ⟨⟨⟨-, hsize, -⟩, -, -, htable⟩, -, -⟩ := stateInv_iff.1 hs
    rw [exec_fault hsize htable hf h, faultOf]
    split <;> decide
  · rw [step_of_running hr hp] at h
    exact pulseEdge_keeps_fault (s := afterEdge s) h

/-- Settles O58: by instruction; HASH and CONVERT write a zero-extended field. -/
theorem resultRegisterWrites : Obligations.ResultRegisterWrites := by
  unfold Obligations.ResultRegisterWrites
  intro i s t h
  have pulse : ∀ y, pulseEdge y s = .next t → t.res = s.res := fun y h => by
    obtain ⟨-, -, hres, -⟩ := pulseEdge_keeps h
    exact hres
  cases i with
  | build => rcases execBuild_next h with ⟨-, rfl⟩ | ⟨-, rfl⟩ <;> rfl
  | hash data off =>
    rcases execHash_next h with ⟨-, rfl⟩ | ⟨-, b, -, rfl⟩ | ⟨-, -, rfl⟩
    · rfl
    · exact extract_setWidth_above b
    · rfl
  | convert reg =>
    cases h
    exact extract_setWidth_above _
  | generate id ok temp =>
    rcases execGenerate_next h with ⟨-, rfl⟩ | ⟨-, b, -, rfl⟩ | ⟨-, -, rfl⟩
    · exact fun _ => rfl
    · exact fun hdone => Bool.noConfusion hdone
    · exact fun _ => rfl
  | transmit b0 b1 b2 b3 => cases h; rfl
  | reserved5 => cases h; rfl
  | reserved6 => cases h; rfl
  | reserved7 => cases h; rfl
  | zero => exact pulse .zero h
  | one => exact pulse .one h
  | start => exact pulse .start h
  | stop => exact pulse .stop h

/-- Settles O59: by instruction; each ends by taking a fault or by completing, and a pulse completes only at the end. -/
theorem doneFlagAfterAccept : Obligations.DoneFlagAfterAccept := by
  unfold Obligations.DoneFlagAfterAccept
  intro i s t _ hf h
  cases i with
  | build =>
    rcases execBuild_next h with ⟨-, rfl⟩ | ⟨-, rfl⟩
    · exact done_of_raiseFault ..
    · exact done_of_complete hf
  | hash data off =>
    rcases execHash_next h with ⟨-, rfl⟩ | ⟨-, b, -, rfl⟩ | ⟨-, -, rfl⟩
    · exact done_of_raiseFault ..
    · exact done_of_complete hf
    · exact done_of_raiseFault ..
  | convert reg => cases h; rfl
  | generate id ok temp =>
    rcases execGenerate_next h with ⟨-, rfl⟩ | ⟨-, b, -, rfl⟩ | ⟨-, -, rfl⟩
    · exact done_of_raiseFault ..
    · exact done_of_complete hf
    · exact done_of_raiseFault ..
  | transmit b0 b1 b2 b3 => cases h; rfl
  | reserved5 => cases h; rfl
  | reserved6 => cases h; rfl
  | reserved7 => cases h; rfl
  | zero => exact pulseEdge_keeps_done (y := .zero) h
  | one => exact pulseEdge_keeps_done (y := .one) h
  | start => exact pulseEdge_keeps_done (y := .start) h
  | stop => exact pulseEdge_keeps_done (y := .stop) h

end Sys2Proof.Proofs
end
